-- ==== Sys2Proof/Config.lean ====
section
/-! DEFINITION. The implementation parameters of the core (spec/00_scope.md R7) that are
not fixed by the source: the register width and the register reset values. `MEM_SIZE` = 256, `CELL_WIDTH` = 8 and
`NUM_REGS` = 8 are the source's own numbers and stand as numerals. -/

namespace Sys2Proof

/-- The default of `W`, the register width: the spec decides 8 (R7, D1). The state, every meaning, the step and the
ports take the width as an argument `w` with this default; a name written without a width, `State` or `Word`, is the
core at the default. Log 1. -/
abbrev Config.W : Nat := 8

/-- `REG_RESET`: what each register of a core of a given width holds after reset. The spec leaves it open, quantifies
every claim over it and forbids fixing it at 0 (R25, R41, D3), so it is a constant with no body. DESIGN CHOICE, unsafe,
log 2. -/
opaque Config.regReset : (w : Nat) → Fin 8 → BitVec w

end Sys2Proof
end

