-- ==== Sys2Proof/Word.lean ====
section
/-! DEFINITION. The two word types: a memory cell or instruction byte, and a register value. -/

namespace Sys2Proof

/-- A memory cell, an opcode or an operand: 8 bits, bit 0 least significant (R7, R8, D22). -/
abbrev Byte := BitVec 8

/-- A register value: an unsigned number of `W` bits (R9, R21, R24). -/
abbrev Word (w : Nat := Config.W) := BitVec w

end Sys2Proof
end

