-- ==== Sys2Proof/Machine/State.lean ====
section
/-! DEFINITION. The state of the core (spec/10_state.md R20), the reasons a step can stop, and the state after reset. -/

namespace Sys2Proof.Machine

/-- The number of a general register, R0 to R7 (R21). -/
abbrev Reg := Fin 8

/-- The 256 cells as (address, byte) pairs in one canonical form (`Memory.wf`): addresses rise, none is above 255,
and no pair holds 0, which is what an unlisted address reads as (R50, R53). -/
abbrev Memory := List Host.Cell

/-- The three condition flags: Equal, Less-than, Greater-than (R30). -/
structure Flags where
  E : Bool
  L : Bool
  G : Bool
deriving DecidableEq, Repr

/-- The four fault causes (R35, R160). -/
inductive FaultCause where
  /-- The opcode byte is not in the table (R161). -/
  | unknownInstruction
  /-- A fetch, an operand fetch or a load-port write above 255 (R163). -/
  | addressOutOfRange
  /-- A register field above 7 (R162). -/
  | invalidRegister
  /-- An ALU operation outside Add, Multiply, Compare: kept, and never raised by a step (R124, R164). -/
  | unsupportedOperation
deriving DecidableEq, Repr

/-- The fault record of R35: the cause, the pc of the step that raised it, and the offending value. -/
structure FaultRecord where
  cause : FaultCause
  pc : Nat
  info : Nat
deriving DecidableEq, Repr

/-- The run state (R35). -/
inductive RunState where
  | running
  | halted
  | faulted (r : FaultRecord)
deriving DecidableEq, Repr

/-- What `raise F(info)` carries before the pc of the step is added to it (R10, R166). -/
structure Raised where
  cause : FaultCause
  info : Nat
deriving DecidableEq, Repr

/-- The whole state of a core of register width `w`: "exactly this record, and nothing else is state" (R20). `State`
with no width is the core at the width the spec decides (R7). -/
structure State (w : Nat := Config.W) where
  /-- Memory (R50). -/
  mem : Memory
  /-- The general registers (R21). -/
  x : Vector (Word w) 8
  /-- The program counter, a natural number with no wrap (R26, R28). -/
  pc : Nat
  /-- The condition flags (R30). -/
  flags : Flags
  /-- The run state with its fault record (R35). -/
  run : RunState
  /-- The values PRN has emitted since reset, oldest first (R38). -/
  out : List (Word w)
deriving DecidableEq, Repr

/-- Why no step exists. A fault of the HARDWARE (R160) is not one of these: its entry is a next state whose run state
is Faulted (R166), log 3. -/
inductive Fault where
  /-- Raised by `step` alone, on a Halted core: "a step from Halted or Faulted does not exist" (R86). Safe. -/
  | halted
  /-- Raised by `step` alone, on a Faulted core, with the record it keeps (R86, R168). Safe. -/
  | faulted (r : FaultRecord)
deriving DecidableEq, Repr

/-- Why an instruction has no meaning. -/
inductive Refusal where
  /-- Raised by an arm of `exec` for an instruction with no meaning yet; no arm does so now. Safe. -/
  | notModelled (mnemonic : String)
deriving DecidableEq, Repr

/-- What a meaning and a step answer. -/
abbrev Result (w : Nat := Config.W) := Host.Outcome (State w) Fault Refusal

/-- The state after reset, for a given `REG_RESET` (R41, R190). -/
def State.resetWith {w : Nat} (regReset : Vector (Word w) 8) : State w where
  mem := []
  x := regReset
  pc := 0
  flags := ⟨false, false, false⟩
  run := .running
  out := []

/-- The machine of a width right after reset: the registers hold the open values of `Config.regReset` (R25, log 2). -/
def State.resetAt (w : Nat) : State w :=
  State.resetWith #v[Config.regReset w 0, Config.regReset w 1, Config.regReset w 2, Config.regReset w 3,
    Config.regReset w 4, Config.regReset w 5, Config.regReset w 6, Config.regReset w 7]

/-- The machine right after reset (R41, R190). -/
def State.reset : State := State.resetAt Config.W

end Sys2Proof.Machine
end

