-- ==== Sys2Proof/Machine/Flags.lean ====
section
/-! DEFINITION. The one flag computation of the core: compare (spec/41_alu.md R122). -/

namespace Sys2Proof.Machine

/-- The three flags after comparing two values as unsigned numbers, at any width (R9, R122, D2). -/
def compareFlags {w : Nat} (p q : BitVec w) : Flags where
  E := p.toNat == q.toNat
  L := decide (p.toNat < q.toNat)
  G := decide (p.toNat > q.toNat)

end Sys2Proof.Machine
end

