-- ==== Sys2Proof/Machine/Operands.lean ====
section
/-! DEFINITION. The operand forms: the register field and the immediate field (spec/30_encoding.md R72, R73, R84). -/

namespace Sys2Proof.Machine

/-- A register field: the whole byte, never masked. 0 to 7 names a register, and 8 to 255 raises InvalidRegister with
that number (R22, R72, R84). -/
def regField (f : Byte) : Except Raised Reg :=
  if h : f.toNat < 8 then .ok ⟨f.toNat, h⟩ else .error ⟨.invalidRegister, f.toNat⟩

/-- `zext_w`: zero-extend a byte to `w` bits (R9). -/
def zextByte (w : Nat) (b : Byte) : BitVec w := b.setWidth w

/-- The immediate field: the whole byte, zero-extended to the register width, never checked (R73, D18). -/
def immField {w : Nat} (b : Byte) : Word w := zextByte w b

end Sys2Proof.Machine
end

