-- ==== Sys2Proof/Machine/Ops.lean ====
section
/-! DEFINITION. The named operations over memory, registers, the pc, the output stream and the run state
(the primitives of spec/00_scope.md R10), and fault entry as ONE shared operation (spec/60_exceptions.md R166). -/

namespace Sys2Proof.Machine

variable {w : Nat}

/-- What an unlisted cell reads as: memory is zero-initialized (R53). -/
def unlistedByte : Byte := 0

/-- The cell at an address. -/
def Memory.get : Memory → Nat → Byte
  | [], _ => unlistedByte
  | (k, v) :: rest, a => if k = a then v else Memory.get rest a

/-- Put a cell in front of a memory, unless it holds what an unlisted cell reads as. -/
def Memory.consCell (a : Nat) (v : Byte) (m : Memory) : Memory :=
  if v = unlistedByte then m else (a, v) :: m

/-- Replace the cell at an address, keeping the canonical form. -/
def Memory.set : Memory → Nat → Byte → Memory
  | [], a, v => Memory.consCell a v []
  | (k, u) :: rest, a, v =>
    if a < k then Memory.consCell a v ((k, u) :: rest)
    else if a = k then Memory.consCell a v rest
    else (k, u) :: Memory.set rest a v

/-- The canonical form: addresses strictly rising, every address a cell of the core, no cell at the unlisted value. -/
abbrev Memory.wf (m : Memory) : Prop :=
  List.Pairwise (fun c d : Host.Cell => c.1 < d.1) m ∧ ∀ c ∈ m, c.1 < 256 ∧ c.2 ≠ unlistedByte

/-- `MemRead(addr, 1)` (R51): no effect but the value; above 255 it raises AddressOutOfRange. -/
def memRead (m : Memory) (addr : Nat) : Except Raised Byte :=
  if 256 ≤ addr then .error ⟨.addressOutOfRange, addr⟩ else .ok (m.get addr)

/-- `MemWrite(addr, 1, v)` (R52): only the load port calls it. -/
def memWrite (m : Memory) (addr : Nat) (v : Byte) : Except Raised Memory :=
  if 256 ≤ addr then .error ⟨.addressOutOfRange, addr⟩ else .ok (m.set addr v)

/-- Read register `x[i]` (R22). -/
def State.readReg (s : State w) (r : Reg) : Word w := s.x[r.val]

/-- Write register `x[i]`; no register is hardwired (R21, R22). -/
def State.writeReg (s : State w) (r : Reg) (v : Word w) : State w := { s with x := s.x.set r.val v }

/-- Move past an instruction of length `n`: the pc never wraps (R27, R28). -/
def State.advance (s : State w) (n : Nat) : State w := { s with pc := s.pc + n }

/-- Assign the pc (R10, R27). -/
def State.jumpTo (s : State w) (target : Nat) : State w := { s with pc := target }

/-- Replace all three flags together (R31). -/
def State.setFlags (s : State w) (f : Flags) : State w := { s with flags := f }

/-- `Emit(v)`: append to the output stream, never waiting (R103). -/
def State.emit (s : State w) (v : Word w) : State w := { s with out := s.out ++ [v] }

/-- `halt` (R10, R140). -/
def State.halt (s : State w) : State w := { s with run := .halted }

/-- Fault entry, `raise F(info)` (R166): the run state becomes Faulted with the cause, the pc of this step and the
info; nothing else changes, and control goes nowhere. There is no return from it: only reset leaves Faulted (R168). -/
def State.raise (s : State w) (f : Raised) : State w :=
  { s with run := .faulted { cause := f.cause, pc := s.pc, info := f.info } }

/-- A step commits all of its instruction's writes or, on a fault, none of them (R85, R166). -/
def commit (s : State w) : Except Raised (State w) → Result w
  | .ok t => .next t
  | .error f => .next (s.raise f)

end Sys2Proof.Machine
end

