-- ==== Sys2Proof/Machine/Alu.lean ====
section
/-! DEFINITION. The ALU contract (spec/41_alu.md R120, R124) and the two ALU instructions, MUL and CMP. -/

namespace Sys2Proof.Machine

variable {w : Nat}

/-- The ALU's operations (R120). An operation outside Add, Multiply and Compare is carried with its index (log 9). -/
inductive AluOp where
  | add
  | multiply
  | compare
  | other (index : Nat)
deriving DecidableEq, Repr

/-- Sum on natural numbers, reduced to the width (R9, R120). -/
def addWrap (p q : BitVec w) : BitVec w := BitVec.ofNat w (p.toNat + q.toNat)

/-- Unsigned product on natural numbers, low bits kept (R9, R121). -/
def mulWrap (p q : BitVec w) : BitVec w := BitVec.ofNat w (p.toNat * q.toNat)

/-- `apply(operation, reg_a, reg_b)` (R120): Add and Multiply write `x[a]` and no flag; Compare writes the flags and
no register; anything else raises UnsupportedOperation with the operation's index (R124, R160). -/
def aluApply (op : AluOp) (ra rb : Reg) (s : State w) : Except Raised (State w) :=
  match op with
  | .add => .ok (s.writeReg ra (addWrap (s.readReg ra) (s.readReg rb)))
  | .multiply => .ok (s.writeReg ra (mulWrap (s.readReg ra) (s.readReg rb)))
  | .compare => .ok (s.setFlags (compareFlags (s.readReg ra) (s.readReg rb)))
  | .other index => .error ⟨.unsupportedOperation, index⟩

/-- An ALU instruction of format RR: `a` is checked before `b` (R84), the operation is applied, and the pc moves past
the three bytes. -/
def aluInstr (op : AluOp) (a b : Byte) (s : State w) : Result w :=
  commit s do
    let ra ← regField a
    let rb ← regField b
    let t ← aluApply op ra rb s
    return t.advance 3

/-- MUL, multiply (R121). -/
def execMul (a b : Byte) (s : State w) : Result w := aluInstr .multiply a b s

/-- CMP, compare (R122). -/
def execCmp (a b : Byte) (s : State w) : Result w := aluInstr .compare a b s

end Sys2Proof.Machine
end

