-- ==== Sys2Proof/Machine/Control.lean ====
section
/-! DEFINITION. Halt and control transfer: HLT, JMP, JEQ, JNE (spec/42_control.md). -/

namespace Sys2Proof.Machine

variable {w : Nat}

/-- A jump of format R: the register field is checked whether or not the jump is taken (R84, D6); the target is the
register's value (R144); not taken, the pc moves past the two bytes. -/
def jumpIf (taken : Bool) (a : Byte) (s : State w) : Result w :=
  commit s do
    let ra ← regField a
    return if taken then s.jumpTo (s.readReg ra).toNat else s.advance 2

/-- HLT, halt (R140): the pc goes one past it. -/
def execHlt (s : State w) : Result w := .next (s.advance 1).halt

/-- JMP, jump to a register (R141). -/
def execJmp (a : Byte) (s : State w) : Result w := jumpIf true a s

/-- JEQ, jump if equal (R142). -/
def execJeq (a : Byte) (s : State w) : Result w := jumpIf s.flags.E a s

/-- JNE, jump if not equal (R143). -/
def execJne (a : Byte) (s : State w) : Result w := jumpIf (!s.flags.E) a s

end Sys2Proof.Machine
end

