-- ==== Sys2Proof/Machine/LoadOutput.lean ====
section
/-! DEFINITION. Register load and program output: LDI and PRN (spec/40_load_and_output.md). -/

namespace Sys2Proof.Machine

variable {w : Nat}

/-- LDI, load immediate (R100). -/
def execLdi (a b : Byte) (s : State w) : Result w :=
  commit s do
    let ra ← regField a
    return (s.writeReg ra (immField b)).advance 3

/-- PRN, print register (R102): the emitted value is the unsigned register value (D2). -/
def execPrn (a : Byte) (s : State w) : Result w :=
  commit s do
    let ra ← regField a
    return (s.emit (s.readReg ra)).advance 2

end Sys2Proof.Machine
end

