-- ==== Sys2Proof/Syntax.lean ====
section
/-! DEFINITION. The instruction set as syntax: one constructor per row of spec/opcode_table.json. -/

namespace Sys2Proof

/-- The eight opcodes, a closed enumeration (R2, R74, R75). -/
inductive Opcode where
  | ldi | prn | mul | hlt | cmp | jmp | jeq | jne
deriving DecidableEq, Repr

/-- The four formats of R71: no operand; one register; two registers; a register and an immediate. -/
inductive Format where
  | z | r | rr | ri
deriving DecidableEq, Repr

/-- An instruction with its operand bytes. A register field is kept as the WHOLE operand byte, since the spec
never masks it and checks it against 7 only after the operand fetch (R72, R84, D27). Log 6. -/
inductive Instr where
  | ldi (a b : Byte)
  | prn (a : Byte)
  | mul (a b : Byte)
  | hlt
  | cmp (a b : Byte)
  | jmp (a : Byte)
  | jeq (a : Byte)
  | jne (a : Byte)
deriving DecidableEq, Repr

/-- The opcode of an instruction. -/
def Instr.opcode : Instr → Opcode
  | .ldi _ _ => .ldi
  | .prn _ => .prn
  | .mul _ _ => .mul
  | .hlt => .hlt
  | .cmp _ _ => .cmp
  | .jmp _ => .jmp
  | .jeq _ => .jeq
  | .jne _ => .jne

/-- The operand bytes in address order: `a` at `pc + 1`, `b` at `pc + 2` (R55, R71). -/
def Instr.operands : Instr → List Byte
  | .ldi a b => [a, b]
  | .prn a => [a]
  | .mul a b => [a, b]
  | .hlt => []
  | .cmp a b => [a, b]
  | .jmp a => [a]
  | .jeq a => [a]
  | .jne a => [a]

/-- The operand bytes that are register fields, in the order they are checked (R84): LDI's `b` is an immediate. -/
def Instr.registerFields : Instr → List Byte
  | .ldi a _ => [a]
  | .prn a => [a]
  | .mul a b => [a, b]
  | .hlt => []
  | .cmp a b => [a, b]
  | .jmp a => [a]
  | .jeq a => [a]
  | .jne a => [a]

end Sys2Proof
end

