-- ==== Sys2Proof/Decode.lean ====
section
/-! DEFINITION. The decoder, total on any bytes and rejecting by name, and the encoder, both from the opcode table
of spec/30_encoding.md R75. -/

namespace Sys2Proof

/-- The opcode byte of each row of R75. -/
def opcodeByte : Opcode → Byte
  | .ldi => 0b10000010
  | .prn => 0b01000111
  | .mul => 0b10100010
  | .hlt => 0b00000001
  | .cmp => 0b10100111
  | .jmp => 0b01010100
  | .jeq => 0b01010101
  | .jne => 0b01010110

/-- The format of each row of R75. -/
def opcodeFormat : Opcode → Format
  | .ldi => .ri
  | .prn => .r
  | .mul => .rr
  | .hlt => .z
  | .cmp => .rr
  | .jmp => .r
  | .jeq => .r
  | .jne => .r

/-- The operand count of a format (R71). -/
def formatArity : Format → Nat
  | .z => 0
  | .r => 1
  | .rr => 2
  | .ri => 2

/-- The arity of an opcode, the "operands" column of R75. -/
def opcodeArity (o : Opcode) : Nat := formatArity (opcodeFormat o)

/-- Instruction length: arity + 1, fixed by the opcode alone (R70, R78). -/
def opcodeLength (o : Opcode) : Nat := opcodeArity o + 1

/-- The rows of R75 in the table's order. -/
def opcodeTable : List Opcode := [.ldi, .prn, .mul, .hlt, .cmp, .jmp, .jeq, .jne]

/-- Decoding the opcode byte: a full-byte match against the table and nothing else (R74, R77, R83). -/
def decodeOpcode (op : Byte) : Option Opcode := opcodeTable.find? fun o => opcodeByte o == op

/-- Why bytes are not an instruction. -/
inductive DecodeError where
  /-- There is no opcode byte (the fetch address is above 255, R80). -/
  | noOpcode
  /-- The opcode byte matches no row (R76, R83). -/
  | unknownOpcode (op : Byte)
  /-- A needed operand byte, the `k`-th after the opcode, is not there (R82). -/
  | missingOperand (k : Nat)
deriving DecidableEq, Repr

/-- Consume one operand byte. -/
def oneOperand (mk : Byte → Instr) : List Byte → Except DecodeError (Instr × List Byte)
  | a :: rest => .ok (mk a, rest)
  | [] => .error (.missingOperand 1)

/-- Consume two operand bytes, the first one first (R82). -/
def twoOperands (mk : Byte → Byte → Instr) : List Byte → Except DecodeError (Instr × List Byte)
  | a :: b :: rest => .ok (mk a b, rest)
  | [_] => .error (.missingOperand 2)
  | [] => .error (.missingOperand 1)

/-- Operand assembly for a decoded opcode (R71 to R73). -/
def decodeOperands : Opcode → List Byte → Except DecodeError (Instr × List Byte)
  | .ldi, bs => twoOperands .ldi bs
  | .prn, bs => oneOperand .prn bs
  | .mul, bs => twoOperands .mul bs
  | .hlt, bs => .ok (.hlt, bs)
  | .cmp, bs => twoOperands .cmp bs
  | .jmp, bs => oneOperand .jmp bs
  | .jeq, bs => oneOperand .jeq bs
  | .jne, bs => oneOperand .jne bs

/-- The instruction at the head of a byte sequence and the bytes after it. The opcode is decoded before any
operand is consumed (R83, R85). -/
def decode : List Byte → Except DecodeError (Instr × List Byte)
  | [] => .error .noOpcode
  | op :: rest =>
    match decodeOpcode op with
    | none => .error (.unknownOpcode op)
    | some o => decodeOperands o rest

/-- The bytes of an instruction in ascending address order (R55, R71). -/
def encode (i : Instr) : List Byte := opcodeByte i.opcode :: i.operands

/-- Byte `k` of a table word: the table numbers byte `k`'s bits from `8 k` up. -/
def tableByte (nbits w k : Nat) : Byte := BitVec.ofNat 8 (w % 2 ^ nbits / 2 ^ (8 * k))

/-- A table word as the bytes the hardware stores, up to the longest instruction, bits above `nbits` zero. -/
def tableBytes (nbits w : Nat) : List Byte := [tableByte nbits w 0, tableByte nbits w 1, tableByte nbits w 2]

/-- The instruction the decoder reads from a word numbered as spec/opcode_table.json numbers it. -/
def decodeTableWord (nbits w : Nat) : Option Instr :=
  match decode (tableBytes nbits w) with
  | .ok (i, _) => some i
  | .error _ => none

end Sys2Proof
end

