-- ==== Sys2Proof/Machine/Fetch.lean ====
section
/-! DEFINITION. Instruction fetch (spec/30_encoding.md R80 to R83): the bounded lookahead, the decoder, the fault
each rejection of the decoder stands for, and one turn of the loop around an execution (R85, R86). -/

namespace Sys2Proof.Machine

/-- The bytes at `pc`, `pc + 1` and `pc + 2`. A read above 255 is not made and never faults by itself (R81, C1, D5). -/
def lookahead (m : Memory) (pc : Nat) : List Byte :=
  [pc, pc + 1, pc + 2].filterMap fun a => (memRead m a).toOption

/-- The fault of a fetch at `pc` that gives no instruction: no opcode byte (R80), an opcode of no row (R83), or a needed
operand byte above 255 (R82). -/
def fetchFault (pc : Nat) : DecodeError → Raised
  | .noOpcode => ⟨.addressOutOfRange, pc⟩
  | .unknownOpcode op => ⟨.unknownInstruction, op.toNat⟩
  | .missingOperand k => ⟨.addressOutOfRange, pc + k⟩

/-- The instruction at the pc, or the fault of R80, R83 or R82, in that order (R85, R167). -/
def fetch {w : Nat} (s : State w) : Except Raised Instr :=
  match decode (lookahead s.mem s.pc) with
  | .ok (i, _) => .ok i
  | .error e => .error (fetchFault s.pc e)

/-- The loop's one turn (R85, R86), for a given execution of the decoded instruction: a Running core fetches and
executes, or takes the fetch's fault. A Halted or Faulted core has no step. -/
def cycle {w : Nat} (execute : Instr → State w → Result w) (s : State w) : Result w :=
  match s.run with
  | .running =>
    match fetch s with
    | .ok i => execute i s
    | .error f => .next (s.raise f)
  | .halted => .fault .halted
  | .faulted r => .fault (.faulted r)

/-- Put bytes in memory from address `addr` up, dropping what lies above 255. -/
def placeBytes (m : Memory) (addr : Nat) : List Byte → Memory
  | [] => m
  | b :: rest => placeBytes (if addr < 256 then m.set addr b else m) (addr + 1) rest

end Sys2Proof.Machine
end

