-- ==== Sys2Proof/Machine/Step.lean ====
section
/-! DEFINITION. One step: one whole instruction, or its fault (spec/30_encoding.md R85, R86). -/

namespace Sys2Proof.Machine

/-- One turn of the cycle with the meanings of `exec`: a Running core's one whole instruction or its fault; a Halted or
Faulted core has no step (R85, R86). -/
def step (s : State) : Host.Outcome State Fault Refusal := cycle exec s

/-- The state with one table word's bytes stored at the pc, as the load port stores a program's (R192, log 4). -/
def State.withFetchWord (s : State) (nbits w : Nat) : State :=
  { s with mem := placeBytes s.mem s.pc (tableBytes nbits w) }

end Sys2Proof.Machine
end

