-- ==== Sys2Proof/Machine/Asm.lean ====
section
/-! DEFINITION. The assembler notation in which the spec writes programs (spec/30_encoding.md R79, D15). It is notation
only: the bytes are normative, and each line encodes to exactly the bytes of its format (log 11). -/

namespace Sys2Proof.Machine

/-- Split at every occurrence of a character. -/
def splitAtChar (c : Char) : List Char → List (List Char)
  | [] => [[]]
  | d :: rest =>
    if d = c then [] :: splitAtChar c rest
    else
      match splitAtChar c rest with
      | [] => [[d]]
      | piece :: pieces => (d :: piece) :: pieces

/-- Drop blanks at both ends. -/
def trimBlanks (cs : List Char) : List Char :=
  let blank := fun c => c = ' ' || c = '\t' || c = '\r'
  ((cs.dropWhile blank).reverse.dropWhile blank).reverse

/-- The value of a digit in base 16 or below. -/
def digitValue (c : Char) : Option Nat :=
  if '0' ≤ c ∧ c ≤ '9' then some (c.toNat - 48)
  else if 'a' ≤ c ∧ c ≤ 'f' then some (c.toNat - 87)
  else if 'A' ≤ c ∧ c ≤ 'F' then some (c.toNat - 55)
  else none

/-- Digits of a base after the digits already read. -/
def digitsFrom (base : Nat) (acc : Nat) : List Char → Option Nat
  | [] => some acc
  | c :: rest =>
    match digitValue c with
    | some d => if d < base then digitsFrom base (acc * base + d) rest else none
    | none => none

/-- A number of one byte: one digit or more, 0 to 255. -/
def byteOf (base : Nat) (cs : List Char) : Option Byte :=
  match cs, digitsFrom base 0 cs with
  | _ :: _, some n => if n < 256 then some (BitVec.ofNat 8 n) else none
  | _, _ => none

/-- An 8-bit value in decimal, `0x` hex or `0b` binary (R79). Hex digits in either case and leading zeros are read, the
prefixes in lower case only. DESIGN CHOICE, log 11. -/
def parseNumber : List Char → Option Byte
  | '0' :: 'x' :: rest => byteOf 16 rest
  | '0' :: 'b' :: rest => byteOf 2 rest
  | cs => byteOf 10 cs

/-- `Rn`: a register field with the value n; 8 to 255 may be written to express a fault test (R79). Leading zeros are
read too. DESIGN CHOICE, log 11. -/
def parseReg : List Char → Option Byte
  | 'R' :: rest => byteOf 10 rest
  | _ => none

/-- One parsed line's instruction: whole, or an LDI whose immediate is a label. -/
inductive AsmInstr where
  | plain (i : Instr)
  | ldiLabel (a : Byte) (label : List Char)
deriving DecidableEq, Repr

/-- A line: the labels it puts on the next instruction, and its instruction if it has one (R79). R79 does not say which
characters a label name may hold: here a name is any text without `:`, `;` and line end, with blanks inside it but not at
its ends. DESIGN CHOICE, log 11. -/
structure AsmLine where
  labels : List (List Char)
  instr : Option AsmInstr
deriving DecidableEq, Repr

/-- `LDI Rn, imm`, where imm is a number or a label. An imm that begins with a digit is read as a number only, so a label
whose name begins with a digit can be defined and not used. DESIGN CHOICE, log 11. -/
def parseLdi (a imm : List Char) : Option AsmInstr :=
  match parseReg a, parseNumber imm, imm with
  | some ra, some v, _ => some (.plain (.ldi ra v))
  | some ra, none, c :: cs => if c.isDigit then none else some (.ldiLabel ra (c :: cs))
  | _, _, _ => none

/-- An instruction with one register operand. -/
def asmOneReg (mk : Byte → Instr) (a : List Char) : Option AsmInstr :=
  (parseReg a).map fun ra => .plain (mk ra)

/-- An instruction with two register operands. -/
def asmTwoRegs (mk : Byte → Byte → Instr) (a b : List Char) : Option AsmInstr :=
  match parseReg a, parseReg b with
  | some ra, some rb => some (.plain (mk ra rb))
  | _, _ => none

/-- An instruction from its mnemonic and its operands (R79). -/
def parseInstr (mnemonic : List Char) (operands : List (List Char)) : Option AsmInstr :=
  match mnemonic, operands with
  | ['L', 'D', 'I'], [a, b] => parseLdi a b
  | ['P', 'R', 'N'], [a] => asmOneReg .prn a
  | ['M', 'U', 'L'], [a, b] => asmTwoRegs .mul a b
  | ['H', 'L', 'T'], [] => some (.plain .hlt)
  | ['C', 'M', 'P'], [a, b] => asmTwoRegs .cmp a b
  | ['J', 'M', 'P'], [a] => asmOneReg .jmp a
  | ['J', 'E', 'Q'], [a] => asmOneReg .jeq a
  | ['J', 'N', 'E'], [a] => asmOneReg .jne a
  | _, _ => none

/-- A line's text without comment and labels: nothing, or a mnemonic and its operands separated by commas. -/
def parseBody (body : List Char) : Option (Option AsmInstr) :=
  let mnemonic := body.takeWhile fun c => c ≠ ' ' && c ≠ '\t'
  let rest := trimBlanks (body.drop mnemonic.length)
  let operands := if rest = [] then [] else (splitAtChar ',' rest).map trimBlanks
  if body = [] then some none else (parseInstr mnemonic operands).map some

/-- One line: `;` starts a comment, and each `label:` names the address of the next instruction (R79). DESIGN CHOICE, log
11, since R79 is silent: a label name is any non-empty text between line start or `:` and the next `:`, its outer blanks
dropped, so it may hold inner blanks or begin with a digit, and a line may have several labels or no instruction. -/
def parseLine (line : List Char) : Option AsmLine :=
  let pieces := (splitAtChar ':' (line.takeWhile fun c => c ≠ ';')).map trimBlanks
  match parseBody (pieces.getLastD []) with
  | some instr => if [] ∈ pieces.dropLast then none else some ⟨pieces.dropLast, instr⟩
  | none => none

/-- The length in bytes of a parsed instruction. -/
def asmLength : AsmInstr → Nat
  | .plain i => (encode i).length
  | .ldiLabel _ _ => opcodeLength .ldi

/-- The address of every label, given the address of the first line: that of the next instruction (R79). R79 does not say
what a label names when no instruction follows it: here it names the address one past the program's last byte, and may be
used as an imm like any other. DESIGN CHOICE, log 11. -/
def labelAddresses (addr : Nat) : List AsmLine → List (List Char × Nat)
  | [] => []
  | l :: rest =>
    (l.labels.map fun name => (name, addr)) ++ labelAddresses (addr + (l.instr.map asmLength).getD 0) rest

/-- The instruction with its label replaced by the label's address, which has to be a byte. -/
def resolve (table : List (List Char × Nat)) : AsmInstr → Option Instr
  | .plain i => some i
  | .ldiLabel a name =>
    match table.lookup name with
    | some addr => if addr < 256 then some (.ldi a (BitVec.ofNat 8 addr)) else none
    | none => none

/-- All or nothing over a list. -/
def collect {α β : Type} (f : α → Option β) : List α → Option (List β)
  | [] => some []
  | x :: rest =>
    match f x, collect f rest with
    | some y, some ys => some (y :: ys)
    | _, _ => none

/-- The instructions of parsed lines; a label defined twice is refused. -/
def resolveLines (lines : List AsmLine) : Option (List Instr) :=
  let table := labelAddresses 0 lines
  if (table.map Prod.fst).Nodup then collect (resolve table) (lines.filterMap AsmLine.instr) else none

/-- The instructions a program text stands for. -/
def assembleInstrs (text : List Char) : Option (List Instr) :=
  match collect parseLine (splitAtChar '\n' text) with
  | some lines => resolveLines lines
  | none => none

/-- The image of a program text, loaded at address 0: the bytes of its instructions in order (R79). -/
def assemble (text : List Char) : Option (List Byte) :=
  (assembleInstrs text).map fun is => is.flatMap encode

end Sys2Proof.Machine
end

