-- ==== Sys2Proof/Machine/Width.lean ====
section
/-! DEFINITION. The core at any register width (spec/00_scope.md R7): the same meanings and the same cycle, with the
width as an argument. At the default width they are `exec` and `step` (Laws/Step.lean proves it). -/

namespace Sys2Proof.Machine

/-- The meaning of an instruction at any width. -/
def execAt {w : Nat} (i : Instr) (s : State w) : Result w :=
  match i with
  | .ldi a b => execLdi a b s
  | .prn a => execPrn a s
  | .mul a b => execMul a b s
  | .hlt => execHlt s
  | .cmp a b => execCmp a b s
  | .jmp a => execJmp a s
  | .jeq a => execJeq a s
  | .jne a => execJne a s

/-- One step at any width (R85, R86). -/
def stepAt {w : Nat} (s : State w) : Result w := cycle execAt s

end Sys2Proof.Machine
end

