-- ==== Sys2Proof/Machine/Ports.lean ====
section
/-! DEFINITION. The core's interfaces (spec/60_exceptions.md R180 to R184, spec/70_reset_and_hazards.md R190 to R195):
trace port, status port, outcome, end of a run, load port, and the host's moves, at any register width (R7). -/

namespace Sys2Proof.Machine

variable {w : Nat}

/-- What the trace port returns (R180): the pc, the bytes at pc, pc + 1 and pc + 2 (absent above 255, D19), and the
eight registers; not the flags, the output or the fault record. -/
structure TraceView (w : Nat := Config.W) where
  pc : Nat
  byte0 : Option Byte
  byte1 : Option Byte
  byte2 : Option Byte
  regs : Vector (Word w) 8
deriving DecidableEq, Repr

/-- The trace port's read: it never faults (R180, C10). -/
def traceOf (s : State w) : TraceView w where
  pc := s.pc
  byte0 := (memRead s.mem s.pc).toOption
  byte1 := (memRead s.mem (s.pc + 1)).toOption
  byte2 := (memRead s.mem (s.pc + 2)).toOption
  regs := s.x

/-- The status fields with their widths (R36). -/
structure StatusView where
  runState : BitVec 2
  faultCause : BitVec 3
  faultPc : BitVec 9
  faultInfo : BitVec 9
deriving DecidableEq, Repr

/-- The cause codes 1 to 4 (R36, R160, D9). -/
def causeCode : FaultCause → Nat
  | .unknownInstruction => 1
  | .addressOutOfRange => 2
  | .invalidRegister => 3
  | .unsupportedOperation => 4

/-- The status port's read (R36, R181): the fault fields read 0 unless RUN_STATE is 2. -/
def statusOf (s : State w) : StatusView :=
  match s.run with
  | .running => ⟨0, 0, 0, 0⟩
  | .halted => ⟨1, 0, 0, 0⟩
  | .faulted r => ⟨2, BitVec.ofNat 3 (causeCode r.cause), BitVec.ofNat 9 r.pc, BitVec.ofNat 9 r.info⟩

/-- What the host makes of a status it reads (R182): success, or a failure with its cause code and its diagnostic,
the fault's pc and info. -/
inductive RunOutcome where
  | success
  | failure (cause : BitVec 3) (pc info : BitVec 9)
deriving DecidableEq, Repr

/-- The outcome mapping (R182): none while the core runs; distinct for each fault cause by its code. -/
def outcomeOf (v : StatusView) : Option RunOutcome :=
  if v.runState = 1 then some .success
  else if v.runState = 2 then some (.failure v.faultCause v.faultPc v.faultInfo)
  else none

/-- The constraint on the open parameter EXIT_CODE (R182, D20): 0 for Halted, and non-zero and distinct for each
fault cause. The numbers are the host's, so they are an argument here and never a value (log 10). -/
def exitCodesValid (exitCode : Option FaultCause → Int) : Prop :=
  exitCode none = 0 ∧ (∀ c, exitCode (some c) ≠ 0) ∧ ∀ c d, exitCode (some c) = exitCode (some d) → c = d

/-- The process exit code of a run, for a given EXIT_CODE; none while the core runs. -/
def exitStatus (exitCode : Option FaultCause → Int) (s : State w) : Option Int :=
  match s.run with
  | .running => none
  | .halted => some (exitCode none)
  | .faulted r => some (exitCode (some r.cause))

/-- The observation of a run that has ended (R184). -/
structure Observation (w : Nat := Config.W) where
  run : RunState
  out : List (Word w)
  regs : Vector (Word w) 8
  pc : Nat
  flags : Flags
  mem : Memory
deriving DecidableEq, Repr

/-- A run has ended exactly when the core is not Running (R184). -/
def observe (s : State w) : Option (Observation w) :=
  if s.run = .running then none
  else some { run := s.run, out := s.out, regs := s.x, pc := s.pc, flags := s.flags, mem := s.mem }

/-- What an executor with fuel reports (R86, D29). -/
inductive Verdict (w : Nat := Config.W) where
  /-- Out of fuel: no verdict, never a halt. -/
  | noVerdict
  | ended (o : Observation w)
deriving DecidableEq, Repr

/-- Run for at most `fuel` steps (R86). -/
def runFor : Nat → State w → Verdict w
  | 0, s =>
    match observe s with
    | some o => .ended o
    | none => .noVerdict
  | fuel + 1, s =>
    match observe s with
    | some o => .ended o
    | none =>
      match stepAt s with
      | .next t => runFor fuel t
      | .fault _ => .noVerdict
      | .refused _ => .noVerdict

/-- The load port: the image's bytes in order, from an address up, each through MemWrite (R192). -/
def loadBytes (m : Memory) (addr : Nat) : List Byte → Except Raised Memory
  | [] => .ok m
  | b :: rest =>
    match memWrite m addr b with
    | .ok m' => loadBytes m' (addr + 1) rest
    | .error f => .error f

/-- The launch state for a given REG_RESET and image (R192, R195): reset, then the load. It does not exist for an image
longer than 256 bytes, whose 257th write raises AddressOutOfRange in the loader (D14). -/
def launch (regReset : Vector (Word w) 8) (image : List Byte) : Except Raised (State w) :=
  match loadBytes (State.resetWith regReset).mem 0 image with
  | .ok m => .ok { State.resetWith regReset with mem := m }
  | .error f => .error f

/-- The core with the one thing the host's protocol adds: whether it has been started. Before that, steps are held
(R190, R193). It is not part of the core's state, by R20 (log 5). -/
structure Platform (w : Nat := Config.W) where
  core : State w
  started : Bool
deriving DecidableEq, Repr

/-- The moves that change something: the host's load, start and reset (R183), and the core's own step. A reset carries
the REG_RESET it leaves, so nothing is assumed of it (R25, log 2). -/
inductive PlatformMove (w : Nat := Config.W) where
  | load (image : List Byte)
  | start
  | coreStep
  | reset (regReset : Vector (Word w) 8)
deriving DecidableEq, Repr

/-- Why the platform does not accept a move. -/
inductive PortRefusal where
  /-- The load port accepts no writes after the start (R65, R193). Safe. -/
  | loadAfterStart
  /-- An image of more than 256 bytes is outside the load contract (R192, D14, I11; log 8). Safe. -/
  | imageTooLong
  /-- The core is started once (R183). Safe. -/
  | alreadyStarted
  /-- Steps are held until start (R190, R193). Safe. -/
  | notStarted
  /-- The core's own step has no meaning; no step of this core is refused. Safe. -/
  | core (r : Refusal)
deriving DecidableEq, Repr

/-- What a move does (R183). R183 has the start "once, after load" and does not say what a start with no load since reset
does: it is accepted here and starts the core on memory as it stands, all 0 after reset, the empty image. DESIGN CHOICE, log
16. -/
def Platform.apply (p : Platform w) : PlatformMove w → Host.Outcome (Platform w) Fault PortRefusal
  | .load image =>
    if p.started then .refused .loadAfterStart
    else
      match loadBytes p.core.mem 0 image with
      | .ok m => .next { p with core := { p.core with mem := m } }
      | .error _ => .refused .imageTooLong
  | .start => if p.started then .refused .alreadyStarted else .next { p with started := true }
  | .coreStep =>
    if p.started then
      match stepAt p.core with
      | .next t => .next { p with core := t }
      | .fault f => .fault f
      | .refused r => .refused (.core r)
    else .refused .notStarted
  | .reset regReset => .next { core := State.resetWith regReset, started := false }

end Sys2Proof.Machine
end

