-- ==== Sys2Proof/Safety.lean ====
section
/-! DEFINITION. What a state of this core has to satisfy, and what a safe run is. -/

namespace Sys2Proof.Machine

/-- Before the first compare: E, L and G all false (R30, R33). -/
def Flags.unset (f : Flags) : Prop := f = ⟨false, false, false⟩

/-- Exactly one of E, L and G is true (R33). -/
def Flags.exactlyOne (f : Flags) : Prop :=
  f = ⟨true, false, false⟩ ∨ f = ⟨false, true, false⟩ ∨ f = ⟨false, false, true⟩

/-- The info a fault record holds, by cause (R35, R160): an opcode byte of no row, an address above 255, a register
number above 7. UnsupportedOperation is in no legal record (R124, R164). -/
def FaultRecord.legal (r : FaultRecord) : Prop :=
  match r.cause with
  | .unknownInstruction => r.info < 256 ∧ decodeOpcode (BitVec.ofNat 8 r.info) = none
  | .addressOutOfRange => 256 ≤ r.info ∧ r.info ≤ 258
  | .invalidRegister => 8 ≤ r.info ∧ r.info < 256
  | .unsupportedOperation => False

/-- The invariant of the core: canonical memory, the pc in its range, legal flags, and a fault record that is
legal and names the pc the core stands at (R26, R33, R50, R160, R166). -/
structure State.Inv (s : State) : Prop where
  memory : s.mem.wf
  pcRange : s.pc ≤ 258
  flags : s.flags.unset ∨ s.flags.exactlyOne
  record : ∀ r, s.run = .faulted r → r.legal ∧ r.pc = s.pc

/-- A safe state: it has not faulted. -/
def State.notFaulted {w : Nat} (s : State w) : Prop := ∀ r, s.run ≠ .faulted r

/-- The state with a fault of the given cause and info entered at its pc (R166), as the statements write it. -/
def State.faultedWith {w : Nat} (s : State w) (cause : FaultCause) (info : Nat) : State w :=
  { s with run := .faulted { cause := cause, pc := s.pc, info := info } }

/-- The registers an instruction reads, given the Equal flag (R23). -/
def readsReg (i : Instr) (e : Bool) (r : Reg) : Prop :=
  match i with
  | .ldi _ _ => False
  | .prn a => a.toNat = r.val
  | .mul a b => a.toNat = r.val ∨ b.toNat = r.val
  | .hlt => False
  | .cmp a b => a.toNat = r.val ∨ b.toNat = r.val
  | .jmp a => a.toNat = r.val
  | .jeq a => e = true ∧ a.toNat = r.val
  | .jne a => e = false ∧ a.toNat = r.val

/-- The registers an instruction writes (R23). -/
def writesReg (i : Instr) (r : Reg) : Prop :=
  match i with
  | .ldi a _ => a.toNat = r.val
  | .prn _ => False
  | .mul a _ => a.toNat = r.val
  | .hlt => False
  | .cmp _ _ => False
  | .jmp _ => False
  | .jeq _ => False
  | .jne _ => False

end Sys2Proof.Machine
end

