-- ==== Sys2Proof/WellFormed.lean ====
section
/-! DEFINITION. Which instructions name only registers that exist (R72, R84). An ill-formed one still has a
meaning: it raises InvalidRegister. -/

namespace Sys2Proof

/-- A register field names a register when its whole byte is 0 to 7 (R72). -/
def legalField (f : Byte) : Bool := f.toNat < 8

/-- Every register field of the instruction names a register. -/
def Instr.wellFormed (i : Instr) : Bool := i.registerFields.all legalField

end Sys2Proof
end

