-- ==== Sys2Proof/Certificates/Slice0/Obligations.lean ====
section
/-! DEFINITION. The statements for the provers, from the numbered rules of spec/. -/

open Sys2Proof Sys2Proof.Machine

namespace Sys2Proof.Statements

/-- The pseudocode of the instruction rules, written out once more from R100, R102, R121, R122, R140 to R143 in the
spec's own terms, for a core of any width `w`: register numbers and values are natural numbers, reduced `mod 2^w` on a
write. -/
def ruleOf {w : Nat} (o : Opcode) (a b : Nat) (s : State w) : State w :=
  let x := fun n => (s.x.toList.getD n 0).toNat
  let setX := fun n v => s.x.setIfInBounds n (BitVec.ofNat w v)
  match o with
  | .ldi => { s with x := setX a b, pc := s.pc + 3 }
  | .prn => { s with out := s.out ++ [BitVec.ofNat w (x a)], pc := s.pc + 2 }
  | .mul => { s with x := setX a (x a * x b), pc := s.pc + 3 }
  | .hlt => { s with pc := s.pc + 1, run := .halted }
  | .cmp => { s with flags := ⟨x a == x b, decide (x a < x b), decide (x a > x b)⟩, pc := s.pc + 3 }
  | .jmp => { s with pc := x a }
  | .jeq => { s with pc := if s.flags.E then x a else s.pc + 2 }
  | .jne => { s with pc := if s.flags.E then s.pc + 2 else x a }

/-- The register fields of a format, `a` before `b` (R84). -/
def fieldsOf (o : Opcode) (a b : Nat) : List Nat :=
  match o with
  | .ldi | .prn | .jmp | .jeq | .jne => [a]
  | .mul | .cmp => [a, b]
  | .hlt => []

/-- The whole step of a Running core, line by line as R85 has it. -/
def stepAsR85 {w : Nat} (s : State w) : State w :=
  if s.pc > 255 then s.faultedWith .addressOutOfRange s.pc
  else
    let op := s.mem.get s.pc
    match decodeOpcode op with
    | none => s.faultedWith .unknownInstruction op.toNat
    | some ins =>
      if opcodeArity ins ≥ 1 ∧ s.pc + 1 > 255 then s.faultedWith .addressOutOfRange (s.pc + 1)
      else
        let a := (s.mem.get (s.pc + 1)).toNat
        if opcodeArity ins = 2 ∧ s.pc + 2 > 255 then s.faultedWith .addressOutOfRange (s.pc + 2)
        else
          let b := (s.mem.get (s.pc + 2)).toNat
          match (fieldsOf ins a b).find? (fun f => f > 7) with
          | some f => s.faultedWith .invalidRegister f
          | none => ruleOf ins a b s

/-- The pc after each instruction, the table of R27. -/
def pcAfter (i : Instr) (s : State) (t : Reg → Nat) : Nat :=
  match i with
  | .ldi _ _ => s.pc + 3
  | .prn _ => s.pc + 2
  | .mul _ _ => s.pc + 3
  | .hlt => s.pc + 1
  | .cmp _ _ => s.pc + 3
  | .jmp a => t (Fin.ofNat 8 a.toNat)
  | .jeq a => if s.flags.E then t (Fin.ofNat 8 a.toNat) else s.pc + 2
  | .jne a => if s.flags.E then s.pc + 2 else t (Fin.ofNat 8 a.toNat)

/-- Executing instructions one after the other, whatever stands in memory. -/
def execAll : List Instr → State → Result
  | [], s => .next s
  | i :: is, s =>
    match exec i s with
    | .next t => execAll is t
    | .fault f => .fault f
    | .refused r => .refused r

/-- A register operand as R79 writes it: `R` and the number in decimal. -/
def regText (n : Byte) : List Char := 'R' :: Nat.toDigits 10 n.toNat

/-- The ways R79 writes an 8-bit number: decimal, `0x` hex (lower or upper case), `0b` binary. -/
def numberTexts (v : Byte) : List (List Char) :=
  [Nat.toDigits 10 v.toNat, '0' :: 'x' :: Nat.toDigits 16 v.toNat,
    '0' :: 'x' :: (Nat.toDigits 16 v.toNat).map Char.toUpper, '0' :: 'b' :: Nat.toDigits 2 v.toNat]

/-- What may follow an instruction on its line: nothing, or a comment. -/
def endsLine (tail : List Char) : Prop := tail = [] ∨ ∃ comment, '\n' ∉ comment ∧ tail = ' ' :: ';' :: comment

/-- A source line: a label or none, and an instruction, whose LDI immediate may be a label. -/
structure SourceLine where
  label : Option (List Char)
  instr : AsmInstr

/-- An instruction as R79 writes it, with a number in decimal. -/
def instrText : AsmInstr → List Char
  | .plain (.ldi a b) => "LDI ".toList ++ regText a ++ ", ".toList ++ Nat.toDigits 10 b.toNat
  | .plain (.prn a) => "PRN ".toList ++ regText a
  | .plain (.mul a b) => "MUL ".toList ++ regText a ++ ", ".toList ++ regText b
  | .plain .hlt => "HLT".toList
  | .plain (.cmp a b) => "CMP ".toList ++ regText a ++ ", ".toList ++ regText b
  | .plain (.jmp a) => "JMP ".toList ++ regText a
  | .plain (.jeq a) => "JEQ ".toList ++ regText a
  | .plain (.jne a) => "JNE ".toList ++ regText a
  | .ldiLabel a name => "LDI ".toList ++ regText a ++ ", ".toList ++ name

/-- A line as R79 writes it: `label: LDI R2, 8`. -/
def lineText (l : SourceLine) : List Char :=
  match l.label with
  | some name => name ++ ": ".toList ++ instrText l.instr
  | none => instrText l.instr

/-- One instruction per line. -/
def programText (lines : List SourceLine) : List Char := List.intercalate ['\n'] (lines.map lineText)

/-- A label name of letters, digits and `_`, with a letter first. -/
def labelName (name : List Char) : Prop :=
  (∃ c cs, name = c :: cs ∧ c.isAlpha = true) ∧ ∀ c ∈ name, c.isAlphanum = true ∨ c = '_'

/-- The bytes a line takes. -/
def lineLength (l : SourceLine) : Nat :=
  match l.instr with
  | .plain i => opcodeLength i.opcode
  | .ldiLabel _ _ => 3

/-- The address of the instruction a label precedes: the bytes of the lines before it. -/
def labelAddress (lines : List SourceLine) (name : List Char) : Nat :=
  ((lines.takeWhile fun l => l.label ≠ some name).map lineLength).sum

/-- The bytes of a program's instructions in order, with a label's address as the immediate. -/
def imageOf (lines : List SourceLine) : List Byte :=
  lines.flatMap fun l =>
    match l.instr with
    | .plain i => encode i
    | .ldiLabel a name => [0x82, a, BitVec.ofNat 8 (labelAddress lines name)]

end Sys2Proof.Statements

open Sys2Proof.Statements

/-! ## Encoding and decoding -/

/-- Decoding the bytes of any instruction, whatever follows them, gives the instruction back (R71, R75). -/
def Obligations.DecodeOfEncodeIsTheInstruction : Prop :=
  ∀ (i : Instr) (rest : List Byte), decode (encode i ++ rest) = .ok (i, rest)

/-- Every byte sequence the decoder accepts is the encoding of what it answers: no second spelling (R71, R74). -/
def Obligations.DecodedBytesAreTheEncoding : Prop :=
  ∀ (bs rest : List Byte) (i : Instr), decode bs = .ok (i, rest) → bs = encode i ++ rest

/-- Words written out bit by bit from R75 and R71 decode to the instructions they stand for. -/
def Obligations.TableWordsDecode : Prop :=
  decode [0b10000010, 0b00000100, 0b00101010] = .ok (.ldi 4 42, []) ∧
  decode [0b01000111, 0b00000101] = .ok (.prn 5, []) ∧
  decode [0b10100010, 0b00000001, 0b00000010] = .ok (.mul 1 2, []) ∧
  decode [0b00000001] = .ok (.hlt, []) ∧
  decode [0b10100111, 0b00000110, 0b00000111] = .ok (.cmp 6 7, []) ∧
  decode [0b01010100, 0b00000010] = .ok (.jmp 2, []) ∧
  decode [0b01010101, 0b00000011] = .ok (.jeq 3, []) ∧
  decode [0b01010110, 0b00000011] = .ok (.jne 3, [])

/-- R70: the opcode alone fixes the length, 1 to 3 bytes, as arity + 1, with the operand counts of R75. -/
def Obligations.OpcodeFixesTheLength : Prop :=
  ∀ (bs rest : List Byte) (i : Instr), decode bs = .ok (i, rest) →
    ∃ n, bs.length = rest.length + (n + 1) ∧ n ≤ 2 ∧
      n = (match i.opcode with
        | .ldi | .mul | .cmp => 2
        | .prn | .jmp | .jeq | .jne => 1
        | .hlt => 0)

/-- R76, R83, R161: exactly the 248 listed opcode bytes are illegal; a step at one raises UnknownInstruction with that
byte, whatever follows it, and changes nothing but the run state. -/
def Obligations.IllegalOpcodeRaisesUnknownInstruction : Prop :=
  (∀ op : Byte, decodeOpcode op = none ↔
    (op.toNat = 0x00 ∨ (0x02 ≤ op.toNat ∧ op.toNat ≤ 0x46) ∨ (0x48 ≤ op.toNat ∧ op.toNat ≤ 0x53) ∨
      (0x57 ≤ op.toNat ∧ op.toNat ≤ 0x81) ∨ (0x83 ≤ op.toNat ∧ op.toNat ≤ 0xA1) ∨
      (0xA3 ≤ op.toNat ∧ op.toNat ≤ 0xA6) ∨ 0xA8 ≤ op.toNat)) ∧
  ∀ s : State, s.run = .running → s.pc ≤ 255 → decodeOpcode (s.mem.get s.pc) = none →
    step s = .next (s.faultedWith .unknownInstruction (s.mem.get s.pc).toNat)

/-! ## The step -/

/-- When the bytes at the pc of a Running core are those of an instruction, the step is that instruction's meaning and
nothing is added around it (R85). It holds for ill-formed instructions too. -/
def Obligations.StepRunsTheDecodedInstruction : Prop :=
  ∀ (s : State) (i : Instr), s.run = .running → s.pc + (encode i).length ≤ 256 →
    (∀ (k : Nat) (h : k < (encode i).length), s.mem.get (s.pc + k) = (encode i)[k]) → step s = exec i s

/-- R85, R167: the step of a Running core is the pseudocode of R85, with its order of checks, and the pseudocode of the
instruction rules. -/
def Obligations.StepIsThePseudocodeOfTheCycle : Prop :=
  ∀ s : State, s.run = .running → step s = .next (stepAsR85 s)

/-- R7: the core at every register width. The step of a Running core of any width is the pseudocode of R85 and of the
instruction rules, written in terms of the width; the default width is 8, and there this step is the machine's. -/
def Obligations.StepAtEveryWidthIsThePseudocode : Prop :=
  (∀ (w : Nat) (s : State w), s.run = .running → stepAt s = .next (stepAsR85 s)) ∧
  (∀ (w : Nat) (s : State w), s.run ≠ .running → ∀ t, stepAt s ≠ .next t) ∧
  Config.W = 8 ∧ ∀ s : State, stepAt s = step s

/-- R199: a Running core has exactly one next state, a Halted or Faulted core has none. -/
def Obligations.ExactlyTheRunningCoreSteps : Prop :=
  ∀ s : State, (s.run = .running → ∃! t, step s = .next t) ∧
    (s.run = .halted ∨ (∃ r, s.run = .faulted r) → ∀ t, step s ≠ .next t)

/-- Every instruction with every operand byte answers a next state: no meaning faults or refuses. -/
def Obligations.EveryInstructionAnswersANextState : Prop :=
  ∀ (i : Instr) (s : State), ∃ t, exec i s = .next t

/-- R80: a step begins by reading the opcode at the pc, and a pc above 255 raises AddressOutOfRange with the pc. -/
def Obligations.OpcodeFetchAboveMemoryFaults : Prop :=
  ∀ s : State, s.run = .running →
    (255 < s.pc → memRead s.mem s.pc = .error ⟨.addressOutOfRange, s.pc⟩ ∧
      step s = .next (s.faultedWith .addressOutOfRange s.pc)) ∧
    (s.pc ≤ 255 → ∃ op, memRead s.mem s.pc = .ok op ∧
      (decodeOpcode op = none → step s = .next (s.faultedWith .unknownInstruction op.toNat)) ∧
      ∀ o, decodeOpcode op = some o → s.pc + opcodeArity o ≤ 255 → ∃ i, i.opcode = o ∧ step s = exec i s)

/-- R82: a needed operand byte above 255 raises AddressOutOfRange with its address, the first one first; otherwise the
instruction runs with the operand bytes its arity needs. -/
def Obligations.OperandFetchFollowsTheArity : Prop :=
  ∀ (s : State) (o : Opcode), s.run = .running → s.pc ≤ 255 → s.mem.get s.pc = opcodeByte o →
    (opcodeArity o ≥ 1 → s.pc + 1 > 255 → step s = .next (s.faultedWith .addressOutOfRange (s.pc + 1))) ∧
    (opcodeArity o = 2 → s.pc + 1 ≤ 255 → s.pc + 2 > 255 →
      step s = .next (s.faultedWith .addressOutOfRange (s.pc + 2))) ∧
    (s.pc + opcodeArity o ≤ 255 →
      ∃ i, i.opcode = o ∧ i.operands = ([s.mem.get (s.pc + 1), s.mem.get (s.pc + 2)].take (opcodeArity o)) ∧
        step s = exec i s)

/-- The lookahead is not observable (R81): memory beyond the bytes the opcode's length covers does not matter. -/
def Obligations.UnusedLookaheadIsNotObservable : Prop :=
  ∀ (s t : State) (m : Memory) (o : Opcode), s.mem.get s.pc = opcodeByte o →
    (∀ k, k < opcodeLength o → m.get (s.pc + k) = s.mem.get (s.pc + k)) → step s = .next t →
    step { s with mem := m } = .next { t with mem := m }

/-! ## The instruction rules, each whole: completion, encoding, faults in order -/

/-- R100, LDI: the effect of the instruction, and the step at its bytes with every fault in its order. -/
def Obligations.LdiLoadsTheImmediate : Prop :=
  (∀ (s : State) (a b : Byte) (h : a.toNat < 8),
    exec (.ldi a b) s = .next { s.writeReg ⟨a.toNat, h⟩ (b.setWidth Config.W) with pc := s.pc + 3 }) ∧
  ∀ s : State, s.run = .running → s.pc ≤ 255 → s.mem.get s.pc = 0x82 →
    step s =
      if s.pc = 255 then .next (s.faultedWith .addressOutOfRange (s.pc + 1))
      else if s.pc = 254 then .next (s.faultedWith .addressOutOfRange (s.pc + 2))
      else if h : (s.mem.get (s.pc + 1)).toNat < 8 then
        .next { s.writeReg ⟨(s.mem.get (s.pc + 1)).toNat, h⟩ ((s.mem.get (s.pc + 2)).setWidth Config.W) with
          pc := s.pc + 3 }
      else .next (s.faultedWith .invalidRegister (s.mem.get (s.pc + 1)).toNat)

/-- R102, PRN. -/
def Obligations.PrnEmitsTheRegister : Prop :=
  (∀ (s : State) (a : Byte) (h : a.toNat < 8),
    exec (.prn a) s = .next { s with out := s.out ++ [s.readReg ⟨a.toNat, h⟩], pc := s.pc + 2 }) ∧
  ∀ s : State, s.run = .running → s.pc ≤ 255 → s.mem.get s.pc = 0x47 →
    step s =
      if s.pc = 255 then .next (s.faultedWith .addressOutOfRange (s.pc + 1))
      else if h : (s.mem.get (s.pc + 1)).toNat < 8 then
        .next { s with out := s.out ++ [s.readReg ⟨(s.mem.get (s.pc + 1)).toNat, h⟩], pc := s.pc + 2 }
      else .next (s.faultedWith .invalidRegister (s.mem.get (s.pc + 1)).toNat)

/-- R121, MUL: the unsigned product modulo `2^W`, also when both fields name one register. -/
def Obligations.MulWritesTheWrappedProduct : Prop :=
  (∀ (s : State) (a b : Byte) (ha : a.toNat < 8) (hb : b.toNat < 8),
    ∃ v : Word, v.toNat = ((s.readReg ⟨a.toNat, ha⟩).toNat * (s.readReg ⟨b.toNat, hb⟩).toNat) % 2 ^ Config.W ∧
      exec (.mul a b) s = .next { s.writeReg ⟨a.toNat, ha⟩ v with pc := s.pc + 3 }) ∧
  ∀ s : State, s.run = .running → s.pc ≤ 255 → s.mem.get s.pc = 0xA2 →
    if s.pc = 255 then step s = .next (s.faultedWith .addressOutOfRange (s.pc + 1))
    else if s.pc = 254 then step s = .next (s.faultedWith .addressOutOfRange (s.pc + 2))
    else if ha : (s.mem.get (s.pc + 1)).toNat < 8 then
      if hb : (s.mem.get (s.pc + 2)).toNat < 8 then
        ∃ v : Word,
          v.toNat = ((s.readReg ⟨_, ha⟩).toNat * (s.readReg ⟨_, hb⟩).toNat) % 2 ^ Config.W ∧
            step s = .next { s.writeReg ⟨_, ha⟩ v with pc := s.pc + 3 }
      else step s = .next (s.faultedWith .invalidRegister (s.mem.get (s.pc + 2)).toNat)
    else step s = .next (s.faultedWith .invalidRegister (s.mem.get (s.pc + 1)).toNat)

/-- R122, CMP: the unsigned comparison sets exactly one flag. -/
def Obligations.CmpSetsExactlyOneFlag : Prop :=
  (∀ (s : State) (a b : Byte) (ha : a.toNat < 8) (hb : b.toNat < 8),
    ∃ f : Flags, f.exactlyOne ∧
      (f.E = true ↔ (s.readReg ⟨a.toNat, ha⟩).toNat = (s.readReg ⟨b.toNat, hb⟩).toNat) ∧
      (f.L = true ↔ (s.readReg ⟨a.toNat, ha⟩).toNat < (s.readReg ⟨b.toNat, hb⟩).toNat) ∧
      (f.G = true ↔ (s.readReg ⟨a.toNat, ha⟩).toNat > (s.readReg ⟨b.toNat, hb⟩).toNat) ∧
      exec (.cmp a b) s = .next { s with flags := f, pc := s.pc + 3 }) ∧
  ∀ s : State, s.run = .running → s.pc ≤ 255 → s.mem.get s.pc = 0xA7 →
    if s.pc = 255 then step s = .next (s.faultedWith .addressOutOfRange (s.pc + 1))
    else if s.pc = 254 then step s = .next (s.faultedWith .addressOutOfRange (s.pc + 2))
    else if ha : (s.mem.get (s.pc + 1)).toNat < 8 then
      if hb : (s.mem.get (s.pc + 2)).toNat < 8 then
        ∃ f : Flags, f.exactlyOne ∧
          (f.E = true ↔ (s.readReg ⟨_, ha⟩).toNat = (s.readReg ⟨_, hb⟩).toNat) ∧
          (f.L = true ↔ (s.readReg ⟨_, ha⟩).toNat < (s.readReg ⟨_, hb⟩).toNat) ∧
          (f.G = true ↔ (s.readReg ⟨_, ha⟩).toNat > (s.readReg ⟨_, hb⟩).toNat) ∧
          step s = .next { s with flags := f, pc := s.pc + 3 }
      else step s = .next (s.faultedWith .invalidRegister (s.mem.get (s.pc + 2)).toNat)
    else step s = .next (s.faultedWith .invalidRegister (s.mem.get (s.pc + 1)).toNat)

/-- R140, HLT: the pc goes one past it, even at 255, and afterwards the core has no step and only a reset restarts it. -/
def Obligations.HltStopsOnePastItself : Prop :=
  (∀ s : State, exec .hlt s = .next { s with pc := s.pc + 1, run := .halted }) ∧
  ∀ s : State, s.run = .running → s.pc ≤ 255 → s.mem.get s.pc = 0x01 →
    step s = .next { s with pc := s.pc + 1, run := .halted } ∧
      (∀ t, step { s with pc := s.pc + 1, run := .halted } ≠ .next t) ∧
      outcomeOf (statusOf { s with pc := s.pc + 1, run := .halted }) = some .success ∧
      ∀ (started : Bool) (m : PlatformMove) (q : Platform),
        Platform.apply ⟨{ s with pc := s.pc + 1, run := .halted }, started⟩ m = .next q →
          q.core.run = .halted ∨ ∃ regReset, m = .reset regReset

/-- R141, JMP: the target is the register's value, and JMP never faults on its target. -/
def Obligations.JmpGoesToTheRegister : Prop :=
  (∀ (s : State) (a : Byte) (h : a.toNat < 8),
    exec (.jmp a) s = .next { s with pc := (s.readReg ⟨a.toNat, h⟩).toNat }) ∧
  ∀ s : State, s.run = .running → s.pc ≤ 255 → s.mem.get s.pc = 0x54 →
    step s =
      if s.pc = 255 then .next (s.faultedWith .addressOutOfRange (s.pc + 1))
      else if h : (s.mem.get (s.pc + 1)).toNat < 8 then
        .next { s with pc := (s.readReg ⟨(s.mem.get (s.pc + 1)).toNat, h⟩).toNat }
      else .next (s.faultedWith .invalidRegister (s.mem.get (s.pc + 1)).toNat)

/-- R142, JEQ: it jumps when E is set and falls through otherwise; the field is checked either way. -/
def Obligations.JeqJumpsWhenEqual : Prop :=
  (∀ (s : State) (a : Byte) (h : a.toNat < 8),
    exec (.jeq a) s = .next (if s.flags.E = true then { s with pc := (s.readReg ⟨a.toNat, h⟩).toNat }
      else { s with pc := s.pc + 2 })) ∧
  ∀ s : State, s.run = .running → s.pc ≤ 255 → s.mem.get s.pc = 0x55 →
    step s =
      if s.pc = 255 then .next (s.faultedWith .addressOutOfRange (s.pc + 1))
      else if h : (s.mem.get (s.pc + 1)).toNat < 8 then
        .next (if s.flags.E = true then { s with pc := (s.readReg ⟨(s.mem.get (s.pc + 1)).toNat, h⟩).toNat }
          else { s with pc := s.pc + 2 })
      else .next (s.faultedWith .invalidRegister (s.mem.get (s.pc + 1)).toNat)

/-- R143, JNE: it jumps when E is clear and falls through otherwise; the field is checked either way. -/
def Obligations.JneJumpsWhenNotEqual : Prop :=
  (∀ (s : State) (a : Byte) (h : a.toNat < 8),
    exec (.jne a) s = .next (if s.flags.E = true then { s with pc := s.pc + 2 }
      else { s with pc := (s.readReg ⟨a.toNat, h⟩).toNat })) ∧
  ∀ s : State, s.run = .running → s.pc ≤ 255 → s.mem.get s.pc = 0x56 →
    step s =
      if s.pc = 255 then .next (s.faultedWith .addressOutOfRange (s.pc + 1))
      else if h : (s.mem.get (s.pc + 1)).toNat < 8 then
        .next (if s.flags.E = true then { s with pc := s.pc + 2 }
          else { s with pc := (s.readReg ⟨(s.mem.get (s.pc + 1)).toNat, h⟩).toNat })
      else .next (s.faultedWith .invalidRegister (s.mem.get (s.pc + 1)).toNat)

/-- After one CMP, exactly one of JEQ and JNE is taken, whatever the two register values are (R143, S3). -/
def Obligations.JeqAndJneAreComplementary : Prop :=
  ∀ (s u : State) (a b c : Byte) (ha : a.toNat < 8) (hb : b.toNat < 8) (hc : c.toNat < 8),
    exec (.cmp a b) s = .next u →
    (s.readReg ⟨a.toNat, ha⟩ = s.readReg ⟨b.toNat, hb⟩ ∧
        exec (.jeq c) u = .next { u with pc := (s.readReg ⟨c.toNat, hc⟩).toNat } ∧
        exec (.jne c) u = .next { u with pc := u.pc + 2 }) ∨
      (s.readReg ⟨a.toNat, ha⟩ ≠ s.readReg ⟨b.toNat, hb⟩ ∧
        exec (.jeq c) u = .next { u with pc := u.pc + 2 } ∧
        exec (.jne c) u = .next { u with pc := (s.readReg ⟨c.toNat, hc⟩).toNat })

/-- R104: two PRNs of a register that nothing writes in between emit the same value twice, whatever else runs
between them. -/
def Obligations.PrnTwiceEmitsTheSameValue : Prop :=
  ∀ (s t u v : State) (a : Byte) (between : List Instr) (h : a.toNat < 8),
    (∀ i ∈ between, ¬ writesReg i ⟨a.toNat, h⟩) → exec (.prn a) s = .next t → execAll between t = .next u →
    exec (.prn a) u = .next v →
    ∃ emitted, v.out = s.out ++ [s.readReg ⟨a.toNat, h⟩] ++ emitted ++ [s.readReg ⟨a.toNat, h⟩]

/-! ## Frames -/

/-- The frame of the two register writers, LDI and MUL: they write no register but the one `a` names, no flag, no output
and no byte of memory; where the step raises, no register at all. -/
def Obligations.FrameOfTheRegisterWriters : Prop :=
  ∀ (a b : Byte) (i : Instr) (s t : State), i = .ldi a b ∨ i = .mul a b → exec i s = .next t →
    (∀ r : Reg, r.val ≠ a.toNat → t.readReg r = s.readReg r) ∧ t.flags = s.flags ∧ t.out = s.out ∧
      (∀ addr, memRead t.mem addr = memRead s.mem addr) ∧
      (t.run = s.run ∨ ∃ f, 8 ≤ f ∧ t = s.faultedWith .invalidRegister f)

/-- The frame of PRN and CMP: no register, no byte of memory; PRN writes no flag, CMP no output. -/
def Obligations.FrameOfPrintAndCompare : Prop :=
  ∀ (a b : Byte) (i : Instr) (s t : State), i = .prn a ∨ i = .cmp a b → exec i s = .next t →
    (∀ r : Reg, t.readReg r = s.readReg r) ∧ (i = .prn a → t.flags = s.flags) ∧ (i = .cmp a b → t.out = s.out) ∧
      (∀ addr, memRead t.mem addr = memRead s.mem addr) ∧
      (t.run = s.run ∨ ∃ f, 8 ≤ f ∧ t = s.faultedWith .invalidRegister f)

/-- The frame of HLT, JMP, JEQ and JNE: no register, flag, output or byte of memory; only HLT halts. -/
def Obligations.FrameOfTheControlInstructions : Prop :=
  ∀ (a : Byte) (i : Instr) (s t : State), i = .hlt ∨ i = .jmp a ∨ i = .jeq a ∨ i = .jne a → exec i s = .next t →
    (∀ r : Reg, t.readReg r = s.readReg r) ∧ t.flags = s.flags ∧ t.out = s.out ∧
      (∀ addr, memRead t.mem addr = memRead s.mem addr) ∧ (i = .hlt → t.run = .halted) ∧
      (i ≠ .hlt → t.run = s.run ∨ ∃ f, 8 ≤ f ∧ t = s.faultedWith .invalidRegister f)

/-- An instruction reads and writes no register outside R23's table (the instructions' own statements say what it does
with those of the table). Changing registers it does not read changes
neither the next pc, flags, output and run state nor the value it writes, and a register it does not write keeps its
value. -/
def Obligations.RegistersReadAndWritten : Prop :=
  ∀ (i : Instr) (s t : State) (y : Vector Word 8),
    (∀ r : Reg, readsReg i s.flags.E r → y[r.val] = s.readReg r) → exec i s = .next t →
    ∃ t', exec i { s with x := y } = .next t' ∧ t'.pc = t.pc ∧ t'.flags = t.flags ∧ t'.run = t.run ∧
      t'.out = t.out ∧ t'.mem = t.mem ∧
      (∀ r : Reg, i.wellFormed = true → writesReg i r → t'.readReg r = t.readReg r) ∧
      ∀ r : Reg, ¬ writesReg i r → t.readReg r = s.readReg r ∧ t'.readReg r = y[r.val]

/-- R27: the next pc of every instruction; a step that faults leaves the pc where it was. -/
def Obligations.NextPcOfEveryInstruction : Prop :=
  (∀ (i : Instr) (s : State), i.wellFormed = true →
    ∃ t, exec i s = .next t ∧ t.pc = pcAfter i s (fun r => (s.readReg r).toNat) ∧ (i = .hlt → t.run = .halted)) ∧
  ∀ (s t : State) (r : FaultRecord), step s = .next t → t.run = .faulted r → t.pc = s.pc

/-! ## Flags and output -/

/-- R31: only a CMP writes flags, it sets exactly one, and a fault writes none. -/
def Obligations.OnlyCompareWritesFlags : Prop :=
  (∀ (i : Instr) (s t : State), exec i s = .next t →
    (t.flags = s.flags ∨ ∃ a b, i = .cmp a b ∧ t.flags.exactlyOne) ∧
    (∀ a b, i = .cmp a b → i.wellFormed = true → t.flags.exactlyOne)) ∧
  ∀ (s t : State) (r : FaultRecord), step s = .next t → t.run = .faulted r → t.flags = s.flags

/-- R32: no instruction reads L or G and the ports do not show them, so for any number of steps two runs that differ
only in L and G stay the same in everything else. -/
def Obligations.LessAndGreaterAreNotObservable : Prop :=
  ∀ (n : Nat) (s t : State) (f : Flags), f.E = s.flags.E → Sys2Proof.core.run n s = .next t →
    ∃ g : Flags, g.E = t.flags.E ∧ Sys2Proof.core.run n { s with flags := f } = .next { t with flags := g } ∧
      traceOf { t with flags := g } = traceOf t ∧ statusOf { t with flags := g } = statusOf t

/-- R33: all flags are false at reset; every step keeps "all false or exactly one true"; once exactly one is true it
stays so; and flags that are all false after a step were all false before it, with no completed CMP. -/
def Obligations.FlagInvariant : Prop :=
  (∀ regReset : Vector Word 8, (State.resetWith regReset).flags.unset) ∧
  (∀ s t : State, step s = .next t → s.flags.unset ∨ s.flags.exactlyOne → t.flags.unset ∨ t.flags.exactlyOne) ∧
  (∀ s t : State, step s = .next t → s.flags.exactlyOne → t.flags.exactlyOne) ∧
  ∀ (i : Instr) (s t : State), exec i s = .next t → s.flags.unset →
    (t.flags.unset ↔ ¬ ∃ a b, i = .cmp a b ∧ i.wellFormed = true)

/-- R38: the output is empty after reset, PRN appends exactly the register's value, and nothing else changes it. -/
def Obligations.OnlyPrintAppendsOutput : Prop :=
  (∀ regReset : Vector Word 8, (State.resetWith regReset).out = []) ∧
  (∀ (a : Byte) (s t : State) (h : a.toNat < 8), exec (.prn a) s = .next t →
    t.out = s.out ++ [s.readReg ⟨a.toNat, h⟩]) ∧
  (∀ (i : Instr) (s t : State), exec i s = .next t → (∀ a, i = .prn a → ¬ a.toNat < 8) → t.out = s.out) ∧
  ∀ s t : State, step s = .next t → t.out = s.out ∨ ∃ v, t.out = s.out ++ [v]

/-! ## Registers, memory, ALU -/

/-- R22: a write replaces the value that a read returns and touches no other register; a field of 0 to 7 names its
register, and any other raises InvalidRegister with its number, never masked. -/
def Obligations.RegisterAccess : Prop :=
  (∀ (s : State) (r q : Reg) (v : Word), (s.writeReg r v).readReg q = if q = r then v else s.readReg q) ∧
  (∀ (f : Byte) (r : Reg), regField f = .ok r ↔ f.toNat = r.val) ∧
  ∀ f : Byte, 7 < f.toNat → regField f = .error ⟨.invalidRegister, f.toNat⟩

/-- R51: a read above 255 raises AddressOutOfRange with the address, and any other gives the cell. -/
def Obligations.MemReadChecksTheAddress : Prop :=
  ∀ (m : Memory) (addr : Nat),
    (255 < addr → memRead m addr = .error ⟨.addressOutOfRange, addr⟩) ∧
    (addr ≤ 255 → memRead m addr = .ok (m.get addr))

/-- R52: a write above 255 raises AddressOutOfRange; any other replaces that cell and no other, in canonical form. -/
def Obligations.MemWriteReplacesOneCell : Prop :=
  ∀ (m : Memory) (addr : Nat) (v : Byte), m.wf →
    (255 < addr → memWrite m addr v = .error ⟨.addressOutOfRange, addr⟩) ∧
    (addr ≤ 255 → ∃ m', memWrite m addr v = .ok m' ∧ m'.wf ∧
      ∀ b, memRead m' b = if b = addr then .ok v else memRead m b)

/-- Two memories in canonical form that read alike are equal data (the model's own form, R50). -/
def Obligations.CanonicalMemoriesAreEqual : Prop :=
  ∀ m n : Memory, m.wf → n.wf → (∀ a, a ≤ 255 → m.get a = n.get a) → m = n

/-- R197: no instruction writes memory, so after any number of steps every cell holds what it held. -/
def Obligations.NoInstructionWritesMemory : Prop :=
  (∀ (i : Instr) (s t : State), exec i s = .next t → t.mem = s.mem) ∧
  ∀ (n : Nat) (s t : State), Sys2Proof.core.run n s = .next t → t.mem = s.mem

/-- R120: the ALU's Add, Multiply and Compare. Add and Multiply write `x[a]` modulo `2^W` and nothing else; Compare
writes the flags and nothing else. Byte 0xA0 is no opcode. -/
def Obligations.AluOperations : Prop :=
  (∀ (s : State) (ra rb : Reg),
    ∃ v : Word, v.toNat = ((s.readReg ra).toNat + (s.readReg rb).toNat) % 2 ^ Config.W ∧
      aluApply .add ra rb s = .ok (s.writeReg ra v)) ∧
  (∀ (s : State) (ra rb : Reg),
    ∃ v : Word, v.toNat = ((s.readReg ra).toNat * (s.readReg rb).toNat) % 2 ^ Config.W ∧
      aluApply .multiply ra rb s = .ok (s.writeReg ra v)) ∧
  (∀ (s : State) (ra rb : Reg),
    ∃ f : Flags, (f.E = true ↔ (s.readReg ra).toNat = (s.readReg rb).toNat) ∧
      (f.L = true ↔ (s.readReg ra).toNat < (s.readReg rb).toNat) ∧
      (f.G = true ↔ (s.readReg ra).toNat > (s.readReg rb).toNat) ∧
      aluApply .compare ra rb s = .ok { s with flags := f }) ∧
  decodeOpcode 0xA0 = none

/-- R124: an operation outside Add, Multiply and Compare fails with UnsupportedOperation, and no step raises it. -/
def Obligations.UnsupportedOperationIsUnreachable : Prop :=
  (∀ (n : Nat) (ra rb : Reg) (s : State), aluApply (.other n) ra rb s = .error ⟨.unsupportedOperation, n⟩) ∧
  (∀ (op : AluOp) (ra rb : Reg) (s : State), op = .add ∨ op = .multiply ∨ op = .compare →
    ∃ t, aluApply op ra rb s = .ok t) ∧
  ∀ (s t : State) (r : FaultRecord), step s = .next t → t.run = .faulted r → r.cause ≠ .unsupportedOperation

/-- The ALU at any register width (R7, R9, R24): results modulo `2^w`, and the three comparisons are exclusive and
exhaustive. -/
def Obligations.AluIsRightAtEveryWidth : Prop :=
  ∀ (w : Nat) (p q : BitVec w),
    (addWrap p q).toNat = (p.toNat + q.toNat) % 2 ^ w ∧ (mulWrap p q).toNat = (p.toNat * q.toNat) % 2 ^ w ∧
      (compareFlags p q).exactlyOne ∧ ((compareFlags p q).E = true ↔ p = q) ∧
      ((compareFlags p q).L = true ↔ p.toNat < q.toNat)

/-! ## Faults -/

/-- R84, R162: the first register field above 7, `a` before `b`, raises InvalidRegister with that value, whether or not
the action would read it; with none above 7 the instruction raises nothing. -/
def Obligations.FirstIllegalFieldRaisesInvalidRegister : Prop :=
  (∀ (a : Byte) (i : Instr) (s : State), 7 < a.toNat →
    (∃ b, i = .ldi a b ∨ i = .mul a b ∨ i = .cmp a b) ∨ i = .prn a ∨ i = .jmp a ∨ i = .jeq a ∨ i = .jne a →
    exec i s = .next (s.faultedWith .invalidRegister a.toNat)) ∧
  (∀ (a b : Byte) (i : Instr) (s : State), a.toNat ≤ 7 → 7 < b.toNat → i = .mul a b ∨ i = .cmp a b →
    exec i s = .next (s.faultedWith .invalidRegister b.toNat)) ∧
  ∀ (i : Instr) (s : State), i.wellFormed = true →
    ∃ t, exec i s = .next t ∧ t.run = if i = .hlt then .halted else s.run

/-- An instruction of the table that stands whole below 256 and names only registers 0 to 7 does not fault (R84, R85). -/
def Obligations.WellFormedInstructionDoesNotFault : Prop :=
  ∀ (s : State) (i : Instr), s.run = .running → s.pc + (encode i).length ≤ 256 →
    (∀ (k : Nat) (h : k < (encode i).length), s.mem.get (s.pc + k) = (encode i)[k]) → i.wellFormed = true →
    ∃ t, step s = .next t ∧ t.notFaulted

/-- R166: a step that enters a fault changes nothing but the run state, and the record's pc is the pc of the step, which
stays; the core stops there. -/
def Obligations.FaultEntryIsPrecise : Prop :=
  ∀ (s t : State) (r : FaultRecord), step s = .next t → t.run = .faulted r →
    t = { s with run := .faulted r } ∧ r.pc = s.pc ∧ t.pc = s.pc ∧ ∀ u, step t ≠ .next u

/-- The fault record by cause (R160, R161, R162, R163): the opcode byte of no row; an address above 255 that is the
pc's or a needed operand's; the first register field above 7 of the instruction whose bytes stand at the pc. -/
def Obligations.FaultRecordNamesItsReason : Prop :=
  ∀ (s t : State) (r : FaultRecord), step s = .next t → t.run = .faulted r →
    match r.cause with
    | .unknownInstruction => s.pc ≤ 255 ∧ r.info = (s.mem.get s.pc).toNat ∧ decodeOpcode (s.mem.get s.pc) = none
    | .addressOutOfRange => 255 < r.info ∧ ((r.info = s.pc) ∨
        ∃ o, decodeOpcode (s.mem.get s.pc) = some o ∧ s.pc < r.info ∧ r.info ≤ s.pc + opcodeArity o)
    | .invalidRegister => ∃ i f, s.pc + (encode i).length ≤ 256 ∧
        (∀ (k : Nat) (h : k < (encode i).length), s.mem.get (s.pc + k) = (encode i)[k]) ∧
        i.registerFields.find? (fun g => decide (7 < g.toNat)) = some f ∧ r.info = f.toNat
    | .unsupportedOperation => False

/-- R168: nothing but a reset leaves Halted or Faulted, and the first fault is kept. After the start, no move but a
reset is even accepted there. -/
def Obligations.OnlyResetLeavesHaltedOrFaulted : Prop :=
  ∀ (p q : Platform) (m : PlatformMove), p.core.run ≠ .running → p.apply m = .next q →
    (∃ regReset, m = .reset regReset ∧ q.core = State.resetWith regReset) ∨
      (q.core.run = p.core.run ∧ p.started = false)

/-! ## Reset, launch, invariants -/

/-- What reset leaves, for every REG_RESET (R41, R190): memory 0, the pc 0, flags false, Running, no output, status
fields 0. That `State.reset` fixes one register file is the model's choice (log 2). -/
def Obligations.ResetState : Prop :=
  (∀ regReset : Vector Word 8, ∃ s, State.resetWith regReset = s ∧
    (∀ a, a ≤ 255 → memRead s.mem a = .ok 0) ∧ (∀ r : Reg, s.readReg r = regReset[r.val]) ∧ s.pc = 0 ∧
    s.flags = ⟨false, false, false⟩ ∧ s.run = .running ∧ s.out = [] ∧ statusOf s = ⟨0, 0, 0, 0⟩) ∧
  ∃ regReset, State.reset = State.resetWith regReset

/-- R195: the launch state of every image of at most 256 bytes and every REG_RESET. A longer image has no launch state
(R192); that the platform then refuses the whole load is the model's choice (log 8). -/
def Obligations.LaunchStateHoldsTheImage : Prop :=
  ∀ (regReset : Vector Word 8) (image : List Byte),
    (image.length ≤ 256 → ∃ s, launch regReset image = .ok s ∧ s.mem.wf ∧
      (∀ a, a ≤ 255 → memRead s.mem a = .ok (image.getD a 0)) ∧ s.x = regReset ∧ s.pc = 0 ∧ s.run = .running ∧
      s.out = [] ∧ s.flags = ⟨false, false, false⟩ ∧
      Platform.apply ⟨State.resetWith regReset, false⟩ (.load image) = .next ⟨s, false⟩ ∧
      Platform.apply ⟨s, false⟩ .start = .next ⟨s, true⟩) ∧
    (256 < image.length → launch regReset image = .error ⟨.addressOutOfRange, 256⟩ ∧
      Platform.apply ⟨State.resetWith regReset, false⟩ (.load image) = .refused .imageTooLong)

/-- The invariant holds right after reset. -/
def Obligations.InvariantHoldsAtReset : Prop :=
  State.reset.Inv ∧ ∀ regReset, (State.resetWith regReset).Inv

/-- Every step keeps the invariant: canonical memory, pc at most 258, legal flags, a legal fault record that names
the pc. -/
def Obligations.EveryStepKeepsTheInvariant : Prop :=
  ∀ s t : State, s.Inv → step s = .next t → t.Inv

/-- The pc never passes 256 when it starts at or below it: the spec's bound of 258 is not reached (DEDUCED, log 7). -/
def Obligations.PcNeverPasses256 : Prop :=
  ∀ (n : Nat) (s t : State), s.pc ≤ 256 → Sys2Proof.core.run n s = .next t → t.pc ≤ 256

/-! ## Host interface -/

/-- R65, R183: the host's moves write no register, flag, pc, output or run state except by reset; memory only by a load
before the start; and the started core has only its own steps. And these moves are accepted: a load of at most 256 bytes
and a start before the start, the step of a started Running core, and a reset at any time. That a start needs no load
since reset is the model's choice (log 16), and so is a second load (log 8). -/
def Obligations.HostMovesAreLimited : Prop :=
  (∀ (p q : Platform) (m : PlatformMove), p.apply m = .next q →
    match m with
    | .load _ => p.started = false ∧ q.started = false ∧ q.core = { p.core with mem := q.core.mem }
    | .start => p.started = false ∧ q = { p with started := true }
    | .coreStep => p.started = true ∧ q.started = true ∧ step p.core = .next q.core ∧ q.core.mem = p.core.mem
    | .reset regReset => q = ⟨State.resetWith regReset, false⟩) ∧
  (∀ (s : State) (image : List Byte), s.mem.wf → image.length ≤ 256 →
    ∃ m, Platform.apply ⟨s, false⟩ (.load image) = .next ⟨{ s with mem := m }, false⟩ ∧
      ∀ a, a ≤ 255 → m.get a = image.getD a (s.mem.get a)) ∧
  (∀ s : State, Platform.apply ⟨s, false⟩ .start = .next ⟨s, true⟩) ∧
  (∀ s : State, s.run = .running →
    ∃ t, step s = .next t ∧ Platform.apply ⟨s, true⟩ .coreStep = .next ⟨t, true⟩) ∧
  ∀ (p : Platform) (regReset : Vector Word 8), p.apply (.reset regReset) = .next ⟨State.resetWith regReset, false⟩

/-- R180: what the trace port returns, in any run state; a byte above 255 is absent. -/
def Obligations.TracePortView : Prop :=
  ∀ s : State, (traceOf s).pc = s.pc ∧ (traceOf s).regs = s.x ∧
    (traceOf s).byte0 = (if s.pc ≤ 255 then some (s.mem.get s.pc) else none) ∧
    (traceOf s).byte1 = (if s.pc + 1 ≤ 255 then some (s.mem.get (s.pc + 1)) else none) ∧
    (traceOf s).byte2 = (if s.pc + 2 ≤ 255 then some (s.mem.get (s.pc + 2)) else none)

/-- R36: the status fields of every state that meets the invariant, so that the 9-bit fields lose nothing. -/
def Obligations.StatusPortFields : Prop :=
  ∀ s : State, s.Inv →
    (s.run = .running → statusOf s = ⟨0, 0, 0, 0⟩) ∧ (s.run = .halted → statusOf s = ⟨1, 0, 0, 0⟩) ∧
    ∀ r, s.run = .faulted r → (statusOf s).runState = 2 ∧ (statusOf s).faultPc.toNat = r.pc ∧
      (statusOf s).faultInfo.toNat = r.info ∧
      (statusOf s).faultCause = (match r.cause with
        | .unknownInstruction => 1
        | .addressOutOfRange => 2
        | .invalidRegister => 3
        | .unsupportedOperation => 4)

/-- R182: the host tells success and each fault cause apart from the status port, a failure carries the diagnostic built
from the status fields, and a process that maps the outcomes with any valid EXIT_CODE tells them apart too. -/
def Obligations.OutcomesAreDistinguishable : Prop :=
  ∀ s : State, (outcomeOf (statusOf s) = none ↔ s.run = .running) ∧
    (outcomeOf (statusOf s) = some .success ↔ s.run = .halted) ∧
    (∀ r, s.run = .faulted r → outcomeOf (statusOf s) =
      some (.failure (statusOf s).faultCause (statusOf s).faultPc (statusOf s).faultInfo)) ∧
    (∀ (t : State) (r q : FaultRecord), s.run = .faulted r → t.run = .faulted q →
      ((statusOf s).faultCause = (statusOf t).faultCause ↔ r.cause = q.cause)) ∧
    ∀ exitCode, exitCodesValid exitCode →
      (exitStatus exitCode s = some 0 ↔ s.run = .halted) ∧
      ∀ (t : State) (r q : FaultRecord), s.run = .faulted r → t.run = .faulted q →
        (exitStatus exitCode s = exitStatus exitCode t ↔ r.cause = q.cause)

/-- R86: with fuel `n` the executor reports the end `o` exactly when some number of steps up to `n` leads to a stopped
core that is observed as `o`, and no verdict exactly when `n` steps leave the core Running. More fuel changes no reported
end, and there are runs that never end, for which every fuel reports no verdict. -/
def Obligations.FuelNeverReportsAHalt : Prop :=
  (∀ (n : Nat) (s : State) (o : Observation), runFor n s = .ended o ↔
    ∃ k, k ≤ n ∧ ∃ t, Sys2Proof.core.run k s = .next t ∧ t.run ≠ .running ∧ observe t = some o) ∧
  (∀ (n : Nat) (s : State), runFor n s = .noVerdict ↔
    ∃ t, Sys2Proof.core.run n s = .next t ∧ t.run = .running) ∧
  (∀ (n k : Nat) (s : State) (o : Observation), runFor n s = .ended o → runFor (n + k) s = .ended o) ∧
  ∃ s : State, s.Inv ∧ ∀ n, runFor n s = .noVerdict

/-- R184: an ended run is observed by its run state with the fault record, output, registers, pc, flags and memory; a
Running core has no observation. -/
def Obligations.EndedRunIsObserved : Prop :=
  ∀ s : State, (s.run = .running ↔ observe s = none) ∧
    ∀ o, observe s = some o ↔ s.run ≠ .running ∧
      s = { mem := o.mem, x := o.regs, pc := o.pc, flags := o.flags, run := o.run, out := o.out }

/-- R79: what one line assembles to, for each mnemonic, every register field 0 to 255 and every number form, with or
without a comment: exactly the bytes of its format. The blanks are those of R79's own lines, and hex digits come in either
case (log 11). -/
def Obligations.AssembledTextIsItsInstructionsBytes : Prop :=
  ∀ (a b : Byte) (imm tail : List Char), imm ∈ numberTexts b → endsLine tail →
    assemble ("LDI ".toList ++ regText a ++ ", ".toList ++ imm ++ tail) = some [0x82, a, b] ∧
    assemble ("PRN ".toList ++ regText a ++ tail) = some [0x47, a] ∧
    assemble ("MUL ".toList ++ regText a ++ ", ".toList ++ regText b ++ tail) = some [0xA2, a, b] ∧
    assemble ("HLT".toList ++ tail) = some [0x01] ∧
    assemble ("CMP ".toList ++ regText a ++ ", ".toList ++ regText b ++ tail) = some [0xA7, a, b] ∧
    assemble ("JMP ".toList ++ regText a ++ tail) = some [0x54, a] ∧
    assemble ("JEQ ".toList ++ regText a ++ tail) = some [0x55, a] ∧
    assemble ("JNE ".toList ++ regText a ++ tail) = some [0x56, a]

/-- R79: a program of any length assembles to its instructions' bytes in order, and a label used as an immediate stands for
the address of the instruction it precedes. Label names here are letters, digits and `_` with a letter first, each defined
once, at an address that fits a byte: R79 says nothing of other names, of a second definition or of a larger address
(log 11). -/
def Obligations.LabelsNameTheNextInstructionsAddress : Prop :=
  ∀ lines : List SourceLine,
    (∀ l ∈ lines, ∀ name, l.label = some name → labelName name) → (lines.filterMap SourceLine.label).Nodup →
    (∀ l ∈ lines, ∀ a name, l.instr = .ldiLabel a name →
      some name ∈ lines.map SourceLine.label ∧ labelAddress lines name ≤ 255) →
    assemble (programText lines) = some (imageOf lines)
end

