-- ==== Sys2Proof/Laws/Decode.lean ====
section
/-! SUPPORT. The decoder's pieces: the opcode byte, operand assembly, and what an answer of the decoder says. -/

namespace Sys2Proof

/-- The opcode byte of a row decodes to that row. -/
@[simp] theorem decodeOpcode_opcodeByte (o : Opcode) : decodeOpcode (opcodeByte o) = some o := by
  cases o <;> decide

/-- A byte that decodes is the opcode byte of its row. -/
theorem opcodeByte_of_decodeOpcode {op : Byte} {o : Opcode} (h : decodeOpcode op = some o) : opcodeByte o = op := by
  have := List.find?_some h
  simpa using this

/-- No two rows share an opcode byte (R74). -/
theorem opcodeByte_injective {o p : Opcode} (h : opcodeByte o = opcodeByte p) : o = p := by
  have := decodeOpcode_opcodeByte o
  rw [h, decodeOpcode_opcodeByte] at this
  exact (Option.some.inj this).symm

/-- An instruction has as many operand bytes as its opcode's arity says (R70). -/
theorem operands_length (i : Instr) : i.operands.length = opcodeArity i.opcode := by
  cases i <;> rfl

/-- The top two bits of each opcode byte are the operand count (R77). -/
theorem opcodeByte_topBits (o : Opcode) : (opcodeByte o).toNat / 64 = opcodeArity o := by
  cases o <;> decide

/-- The bytes of an instruction: its opcode byte, which tells how many operand bytes follow (R70, R71, R77). -/
theorem encode_shape (i : Instr) : ∃ op rest, encode i = op :: rest ∧ decodeOpcode op = some i.opcode ∧
    rest.length = op.toNat / 64 ∧ (encode i).length = opcodeLength i.opcode :=
  ⟨_, _, rfl, decodeOpcode_opcodeByte _, (operands_length i).trans (opcodeByte_topBits _).symm,
    congrArg (· + 1) (operands_length i)⟩

/-- The decoder on an opcode byte of the table. -/
theorem decode_opcodeByte (o : Opcode) (rest : List Byte) :
    decode (opcodeByte o :: rest) = decodeOperands o rest := by
  simp [decode]

/-- Everything operand assembly can answer: an instruction of that opcode whose operands stood first, or the first
needed operand byte that is not there. -/
theorem decodeOperands_cases (o : Opcode) (bs : List Byte) :
    (∃ i rest, decodeOperands o bs = .ok (i, rest) ∧ i.opcode = o ∧ bs = i.operands ++ rest) ∨
      (bs.length < opcodeArity o ∧ decodeOperands o bs = .error (.missingOperand (bs.length + 1))) := by
  cases o <;> rcases bs with _ | ⟨a, _ | ⟨b, bs⟩⟩ <;>
    simp [decodeOperands, oneOperand, twoOperands, opcodeArity, opcodeFormat, formatArity, Instr.opcode,
      Instr.operands]

/-- A field names a register exactly when its whole byte is at most 7 (R72). -/
theorem legalField_iff (f : Byte) : legalField f = true ↔ f.toNat < 8 := by simp [legalField]

end Sys2Proof
end

