-- ==== Sys2Proof/Laws/Memory.lean ====
section
/-! SUPPORT. The memory operations: read after write, and that each of them keeps the canonical form. -/

namespace Sys2Proof.Machine

@[simp] theorem Memory.get_nil (a : Nat) : Memory.get [] a = unlistedByte := rfl

@[simp] theorem Memory.wf_nil : Memory.wf [] := by simp [Memory.wf]

theorem Memory.get_cons (k : Nat) (v : Byte) (m : Memory) (a : Nat) :
    Memory.get ((k, v) :: m) a = if k = a then v else Memory.get m a := rfl

/-- A memory whose addresses all lie above `a` does not list `a`. -/
theorem Memory.get_of_lt (m : Memory) (a : Nat) (h : ∀ c ∈ m, a < c.1) : m.get a = unlistedByte := by
  induction m with
  | nil => rfl
  | cons c m ih =>
    have hc := h c (by simp)
    rw [Memory.get_cons, if_neg (by omega), ih fun d hd => h d (by simp [hd])]

/-- Reading through `consCell`, when the rest lists nothing at its address. -/
theorem Memory.get_consCell (a : Nat) (v : Byte) (m : Memory) (h : ∀ c ∈ m, a < c.1) (b : Nat) :
    Memory.get (Memory.consCell a v m) b = if a = b then v else m.get b := by
  unfold Memory.consCell
  split
  · next hv =>
    split
    · next hab => subst hab; rw [Memory.get_of_lt m a h, hv]
    · rfl
  · exact Memory.get_cons ..

/-- The head of a canonical memory lies below the rest, which is canonical too. -/
theorem Memory.wf_cons {c : Host.Cell} {m : Memory} (h : Memory.wf (c :: m)) :
    (∀ d ∈ m, c.1 < d.1) ∧ m.wf := by
  obtain ⟨hp, ha⟩ := h
  rw [List.pairwise_cons] at hp
  exact ⟨hp.1, hp.2, fun d hd => ha d (by simp [hd])⟩

theorem Memory.wf_consCell {a : Nat} {v : Byte} {m : Memory} (hm : m.wf) (ha : a < 256)
    (h : ∀ c ∈ m, a < c.1) : Memory.wf (Memory.consCell a v m) := by
  unfold Memory.consCell
  split
  · exact hm
  · next hv => exact ⟨List.pairwise_cons.2 ⟨h, hm.1⟩, by simpa [ha, hv] using hm.2⟩

theorem Memory.mem_consCell {a : Nat} {v : Byte} {m : Memory} {c : Host.Cell}
    (h : c ∈ Memory.consCell a v m) : c = (a, v) ∨ c ∈ m := by
  unfold Memory.consCell at h
  split at h
  · exact .inr h
  · simpa using h

/-- A cell of a written memory is the written one or was there before. -/
theorem Memory.mem_set {m : Memory} {a : Nat} {v : Byte} {c : Host.Cell} (h : c ∈ m.set a v) :
    c = (a, v) ∨ c ∈ m := by
  induction m with
  | nil => exact Memory.mem_consCell h
  | cons d m ih =>
    obtain ⟨k, w⟩ := d
    simp only [Memory.set] at h
    split at h
    · exact Memory.mem_consCell h
    · split at h
      · exact (Memory.mem_consCell h).imp id fun h => by simp [h]
      · rcases List.mem_cons.1 h with h | h
        · exact .inr (by simp [h])
        · exact (ih h).imp id fun h => by simp [h]

/-- Reading after a write: the written address gives the written value, every other address what it gave. -/
theorem Memory.get_set {m : Memory} (hm : m.wf) (a : Nat) (v : Byte) (b : Nat) :
    (m.set a v).get b = if a = b then v else m.get b := by
  induction m with
  | nil => exact Memory.get_consCell a v [] (by simp) b
  | cons c m ih =>
    obtain ⟨k, w⟩ := c
    obtain ⟨hlt, hwf⟩ := Memory.wf_cons hm
    simp only [Memory.set]
    split
    · next hak =>
      refine Memory.get_consCell a v _ (fun d hd => ?_) b
      rcases List.mem_cons.1 hd with rfl | hd
      · exact hak
      · exact Nat.lt_trans hak (hlt d hd)
    · split
      · next _ hak =>
        subst hak
        rw [Memory.get_consCell a v m hlt b, Memory.get_cons]
        split <;> rfl
      · next _ hak =>
        rw [Memory.get_cons, Memory.get_cons, ih hwf]
        split
        · next hkb => subst hkb; rw [if_neg hak]
        · rfl

/-- A write to a cell of the core keeps the canonical form. -/
theorem Memory.wf_set {m : Memory} (hm : m.wf) {a : Nat} (ha : a < 256) (v : Byte) :
    (m.set a v).wf := by
  induction m with
  | nil => exact Memory.wf_consCell hm ha (by simp)
  | cons c m ih =>
    obtain ⟨k, w⟩ := c
    obtain ⟨hlt, hwf⟩ := Memory.wf_cons hm
    simp only [Memory.set]
    split
    · next hak =>
      refine Memory.wf_consCell hm ha fun d hd => ?_
      rcases List.mem_cons.1 hd with rfl | hd
      · exact hak
      · exact Nat.lt_trans hak (hlt d hd)
    · split
      · next _ hak => subst hak; exact Memory.wf_consCell hwf ha hlt
      · next h1 h2 =>
        have hi := ih hwf
        refine ⟨List.pairwise_cons.2 ⟨fun d hd => ?_, hi.1⟩, fun d hd => ?_⟩
        · rcases Memory.mem_set hd with rfl | hd
          · show k < a
            omega
          · exact hlt d hd
        · rcases List.mem_cons.1 hd with rfl | hd
          · exact hm.2 _ (by simp)
          · exact hi.2 d hd

/-- `MemRead` inside the address space. -/
@[simp] theorem memRead_of_lt {m : Memory} {a : Nat} (h : a < 256) : memRead m a = .ok (m.get a) :=
  if_neg (Nat.not_le.2 h)

/-- `MemRead` outside it. -/
@[simp] theorem memRead_of_le {m : Memory} {a : Nat} (h : 256 ≤ a) :
    memRead m a = .error ⟨.addressOutOfRange, a⟩ := if_pos h

@[simp] theorem memWrite_of_lt {m : Memory} {a : Nat} {v : Byte} (h : a < 256) :
    memWrite m a v = .ok (m.set a v) := if_neg (Nat.not_le.2 h)

@[simp] theorem memWrite_of_le {m : Memory} {a : Nat} {v : Byte} (h : 256 ≤ a) :
    memWrite m a v = .error ⟨.addressOutOfRange, a⟩ := if_pos h

/-- Everything `MemWrite` can do. -/
theorem memWrite_cases (m : Memory) (a : Nat) (v : Byte) :
    (a < 256 ∧ memWrite m a v = .ok (m.set a v)) ∨
      (256 ≤ a ∧ memWrite m a v = .error ⟨.addressOutOfRange, a⟩) := by
  rcases Nat.lt_or_ge a 256 with h | h
  · exact .inl ⟨h, memWrite_of_lt h⟩
  · exact .inr ⟨h, memWrite_of_le h⟩

theorem memWrite_wf {m m' : Memory} {a : Nat} {v : Byte} (hm : m.wf) (h : memWrite m a v = .ok m') :
    m'.wf := by
  rcases memWrite_cases m a v with ⟨ha, he⟩ | ⟨_, he⟩
  · rw [he] at h; cases h; exact Memory.wf_set hm ha v
  · rw [he] at h; cases h

/-- The load port keeps the canonical form. -/
theorem loadBytes_wf {bs : List Byte} {m m' : Memory} {a : Nat} (hm : m.wf)
    (h : loadBytes m a bs = .ok m') : m'.wf := by
  induction bs generalizing m a with
  | nil => cases h; exact hm
  | cons b bs ih =>
    rcases memWrite_cases m a b with ⟨ha, he⟩ | ⟨_, he⟩
    · simp only [loadBytes, he] at h
      exact ih (Memory.wf_set hm ha b) h
    · simp only [loadBytes, he] at h
      cases h

/-- Placing a table word's bytes keeps the canonical form. -/
theorem placeBytes_wf {bs : List Byte} {m : Memory} {a : Nat} (hm : m.wf) : (placeBytes m a bs).wf := by
  induction bs generalizing m a with
  | nil => exact hm
  | cons b bs ih =>
    refine ih ?_
    split
    · next ha => exact Memory.wf_set hm ha b
    · exact hm

theorem State.withFetchWord_wf {s : State} (hm : s.mem.wf) (nbits w : Nat) :
    (s.withFetchWord nbits w).mem.wf := placeBytes_wf hm

theorem State.resetWith_wf {w : Nat} (r : Vector (Word w) 8) : (State.resetWith r).mem.wf := Memory.wf_nil

theorem State.reset_wf : State.reset.mem.wf := Memory.wf_nil

end Sys2Proof.Machine
end

