-- ==== Sys2Proof/Laws/PerInstr.lean ====
section
/-! SUPPORT. Facts about every instruction as syntax, one lemma per constructor. -/

/-- The shape of an instruction's bytes: the opcode byte first, its top two bits the number of operand bytes, then the
operand bytes in address order (R70, R71, and the pattern of R77). -/
def Sys2Proof.Laws.Shape.Statement (i : Sys2Proof.Instr) : Prop :=
  ∃ op rest, Sys2Proof.encode i = op :: rest ∧ Sys2Proof.decodeOpcode op = some i.opcode ∧
    rest.length = op.toNat / 64 ∧ (Sys2Proof.encode i).length = Sys2Proof.opcodeLength i.opcode

theorem Sys2Proof.Laws.Shape.ldi (a b : Sys2Proof.Byte) : Sys2Proof.Laws.Shape.Statement (.ldi a b) :=
  Sys2Proof.encode_shape _

theorem Sys2Proof.Laws.Shape.prn (a : Sys2Proof.Byte) : Sys2Proof.Laws.Shape.Statement (.prn a) :=
  Sys2Proof.encode_shape _

theorem Sys2Proof.Laws.Shape.mul (a b : Sys2Proof.Byte) : Sys2Proof.Laws.Shape.Statement (.mul a b) :=
  Sys2Proof.encode_shape _

theorem Sys2Proof.Laws.Shape.hlt : Sys2Proof.Laws.Shape.Statement .hlt :=
  Sys2Proof.encode_shape _

theorem Sys2Proof.Laws.Shape.cmp (a b : Sys2Proof.Byte) : Sys2Proof.Laws.Shape.Statement (.cmp a b) :=
  Sys2Proof.encode_shape _

theorem Sys2Proof.Laws.Shape.jmp (a : Sys2Proof.Byte) : Sys2Proof.Laws.Shape.Statement (.jmp a) :=
  Sys2Proof.encode_shape _

theorem Sys2Proof.Laws.Shape.jeq (a : Sys2Proof.Byte) : Sys2Proof.Laws.Shape.Statement (.jeq a) :=
  Sys2Proof.encode_shape _

theorem Sys2Proof.Laws.Shape.jne (a : Sys2Proof.Byte) : Sys2Proof.Laws.Shape.Statement (.jne a) :=
  Sys2Proof.encode_shape _
end

