-- ==== Sys2Proof/Laws/State.lean ====
section
/-! SUPPORT. One lemma per field of State per named update, so that no proof unfolds a record update. -/

namespace Sys2Proof.Machine

variable {w : Nat} (s : State w)

@[simp] theorem State.writeReg_mem (r : Reg) (v : Word w) : (s.writeReg r v).mem = s.mem := rfl
@[simp] theorem State.writeReg_x (r : Reg) (v : Word w) : (s.writeReg r v).x = s.x.set r.val v := rfl
@[simp] theorem State.writeReg_pc (r : Reg) (v : Word w) : (s.writeReg r v).pc = s.pc := rfl
@[simp] theorem State.writeReg_flags (r : Reg) (v : Word w) : (s.writeReg r v).flags = s.flags := rfl
@[simp] theorem State.writeReg_run (r : Reg) (v : Word w) : (s.writeReg r v).run = s.run := rfl
@[simp] theorem State.writeReg_out (r : Reg) (v : Word w) : (s.writeReg r v).out = s.out := rfl

@[simp] theorem State.advance_mem (n : Nat) : (s.advance n).mem = s.mem := rfl
@[simp] theorem State.advance_x (n : Nat) : (s.advance n).x = s.x := rfl
@[simp] theorem State.advance_pc (n : Nat) : (s.advance n).pc = s.pc + n := rfl
@[simp] theorem State.advance_flags (n : Nat) : (s.advance n).flags = s.flags := rfl
@[simp] theorem State.advance_run (n : Nat) : (s.advance n).run = s.run := rfl
@[simp] theorem State.advance_out (n : Nat) : (s.advance n).out = s.out := rfl
@[simp] theorem State.advance_readReg (n : Nat) (i : Reg) : (s.advance n).readReg i = s.readReg i := rfl

@[simp] theorem State.jumpTo_mem (target : Nat) : (s.jumpTo target).mem = s.mem := rfl
@[simp] theorem State.jumpTo_x (target : Nat) : (s.jumpTo target).x = s.x := rfl
@[simp] theorem State.jumpTo_pc (target : Nat) : (s.jumpTo target).pc = target := rfl
@[simp] theorem State.jumpTo_flags (target : Nat) : (s.jumpTo target).flags = s.flags := rfl
@[simp] theorem State.jumpTo_run (target : Nat) : (s.jumpTo target).run = s.run := rfl
@[simp] theorem State.jumpTo_out (target : Nat) : (s.jumpTo target).out = s.out := rfl
@[simp] theorem State.jumpTo_readReg (target : Nat) (i : Reg) : (s.jumpTo target).readReg i = s.readReg i := rfl

@[simp] theorem State.setFlags_mem (f : Flags) : (s.setFlags f).mem = s.mem := rfl
@[simp] theorem State.setFlags_x (f : Flags) : (s.setFlags f).x = s.x := rfl
@[simp] theorem State.setFlags_pc (f : Flags) : (s.setFlags f).pc = s.pc := rfl
@[simp] theorem State.setFlags_flags (f : Flags) : (s.setFlags f).flags = f := rfl
@[simp] theorem State.setFlags_run (f : Flags) : (s.setFlags f).run = s.run := rfl
@[simp] theorem State.setFlags_out (f : Flags) : (s.setFlags f).out = s.out := rfl
@[simp] theorem State.setFlags_readReg (f : Flags) (i : Reg) : (s.setFlags f).readReg i = s.readReg i := rfl

@[simp] theorem State.emit_mem (v : Word w) : (s.emit v).mem = s.mem := rfl
@[simp] theorem State.emit_x (v : Word w) : (s.emit v).x = s.x := rfl
@[simp] theorem State.emit_pc (v : Word w) : (s.emit v).pc = s.pc := rfl
@[simp] theorem State.emit_flags (v : Word w) : (s.emit v).flags = s.flags := rfl
@[simp] theorem State.emit_run (v : Word w) : (s.emit v).run = s.run := rfl
@[simp] theorem State.emit_out (v : Word w) : (s.emit v).out = s.out ++ [v] := rfl
@[simp] theorem State.emit_readReg (v : Word w) (i : Reg) : (s.emit v).readReg i = s.readReg i := rfl

@[simp] theorem State.halt_mem : (s.halt).mem = s.mem := rfl
@[simp] theorem State.halt_x : (s.halt).x = s.x := rfl
@[simp] theorem State.halt_pc : (s.halt).pc = s.pc := rfl
@[simp] theorem State.halt_flags : (s.halt).flags = s.flags := rfl
@[simp] theorem State.halt_run : (s.halt).run = .halted := rfl
@[simp] theorem State.halt_out : (s.halt).out = s.out := rfl
@[simp] theorem State.halt_readReg (i : Reg) : (s.halt).readReg i = s.readReg i := rfl

@[simp] theorem State.raise_mem (f : Raised) : (s.raise f).mem = s.mem := rfl
@[simp] theorem State.raise_x (f : Raised) : (s.raise f).x = s.x := rfl
@[simp] theorem State.raise_pc (f : Raised) : (s.raise f).pc = s.pc := rfl
@[simp] theorem State.raise_flags (f : Raised) : (s.raise f).flags = s.flags := rfl
@[simp] theorem State.raise_run (f : Raised) : (s.raise f).run = .faulted { cause := f.cause, pc := s.pc, info := f.info } := rfl
@[simp] theorem State.raise_out (f : Raised) : (s.raise f).out = s.out := rfl
@[simp] theorem State.raise_readReg (f : Raised) (i : Reg) : (s.raise f).readReg i = s.readReg i := rfl

/-- A register holds what was just written to it. -/
@[simp] theorem State.writeReg_readReg_self (r : Reg) (v : Word w) : (s.writeReg r v).readReg r = v := by
  simp [State.readReg, State.writeReg]

/-- Writing one register leaves every other one alone. -/
theorem State.writeReg_readReg_ne {r i : Reg} (v : Word w) (h : i ≠ r) :
    (s.writeReg r v).readReg i = s.readReg i := by
  have : r.val ≠ i.val := fun e => h (Fin.ext e.symm)
  simp [State.readReg, State.writeReg, Vector.getElem_set_ne _ _ this]

end Sys2Proof.Machine
end

