-- ==== Sys2Proof/Laws/Step.lean ====
section
/-! SUPPORT. One lemma per shared operation of execution and fetch, saying everything it can answer. -/

namespace Sys2Proof.Machine

variable {w : Nat}

/-- A register field at or below 7 names its register. -/
@[simp] theorem regField_of_lt {f : Byte} (h : f.toNat < 8) : regField f = .ok ⟨f.toNat, h⟩ := dif_pos h

/-- A register field above 7 raises InvalidRegister with its number. -/
@[simp] theorem regField_of_le {f : Byte} (h : 8 ≤ f.toNat) : regField f = .error ⟨.invalidRegister, f.toNat⟩ :=
  dif_neg (Nat.not_lt.2 h)

/-- Everything a register field can give. -/
theorem regField_cases (f : Byte) :
    (∃ h : f.toNat < 8, regField f = .ok ⟨f.toNat, h⟩) ∨
      (8 ≤ f.toNat ∧ regField f = .error ⟨.invalidRegister, f.toNat⟩) := by
  rcases Nat.lt_or_ge f.toNat 8 with h | h
  · exact .inl ⟨h, regField_of_lt h⟩
  · exact .inr ⟨h, regField_of_le h⟩

@[simp] theorem commit_ok (s t : State w) : commit s (.ok t) = .next t := rfl

@[simp] theorem commit_error (s : State w) (f : Raised) : commit s (.error f) = .next (s.raise f) := rfl

/-- Everything an ALU instruction can do: raise the first illegal field, or raise what the ALU raises, or commit the
ALU's result and move past three bytes. -/
theorem aluInstr_cases (op : AluOp) (a b : Byte) (s : State w) :
    (8 ≤ a.toNat ∧ aluInstr op a b s = .next (s.raise ⟨.invalidRegister, a.toNat⟩)) ∨
    (a.toNat < 8 ∧ 8 ≤ b.toNat ∧ aluInstr op a b s = .next (s.raise ⟨.invalidRegister, b.toNat⟩)) ∨
    ∃ (ha : a.toNat < 8) (hb : b.toNat < 8),
      (∃ f, aluApply op ⟨a.toNat, ha⟩ ⟨b.toNat, hb⟩ s = .error f ∧ aluInstr op a b s = .next (s.raise f)) ∨
      ∃ t, aluApply op ⟨a.toNat, ha⟩ ⟨b.toNat, hb⟩ s = .ok t ∧ aluInstr op a b s = .next (t.advance 3) := by
  rcases regField_cases a with ⟨ha, ea⟩ | ⟨ha, ea⟩
  · rcases regField_cases b with ⟨hb, eb⟩ | ⟨hb, eb⟩
    · refine .inr (.inr ⟨ha, hb, ?_⟩)
      rcases h : aluApply op ⟨a.toNat, ha⟩ ⟨b.toNat, hb⟩ s with f | t
      · exact .inl ⟨f, rfl, by simp [aluInstr, ea, eb, h, bind, Except.bind]⟩
      · exact .inr ⟨t, rfl, by simp [aluInstr, ea, eb, h, bind, Except.bind, pure, Except.pure]⟩
    · exact .inr (.inl ⟨ha, hb, by simp [aluInstr, ea, eb, bind, Except.bind]⟩)
  · exact .inl ⟨ha, by simp [aluInstr, ea, bind, Except.bind]⟩

/-- Everything a jump can do: raise an illegal field, taken or not; or go to the register's value; or move past two
bytes. -/
theorem jumpIf_cases (taken : Bool) (a : Byte) (s : State w) :
    (8 ≤ a.toNat ∧ jumpIf taken a s = .next (s.raise ⟨.invalidRegister, a.toNat⟩)) ∨
    ∃ ha : a.toNat < 8, jumpIf taken a s =
      .next (if taken then s.jumpTo (s.readReg ⟨a.toNat, ha⟩).toNat else s.advance 2) := by
  rcases regField_cases a with ⟨ha, ea⟩ | ⟨ha, ea⟩
  · exact .inr ⟨ha, by simp [jumpIf, ea, bind, Except.bind, pure, Except.pure]⟩
  · exact .inl ⟨ha, by simp [jumpIf, ea, bind, Except.bind]⟩

/-- Everything LDI can do. -/
theorem execLdi_cases (a b : Byte) (s : State w) :
    (8 ≤ a.toNat ∧ execLdi a b s = .next (s.raise ⟨.invalidRegister, a.toNat⟩)) ∨
    ∃ ha : a.toNat < 8, execLdi a b s = .next ((s.writeReg ⟨a.toNat, ha⟩ (immField b)).advance 3) := by
  rcases regField_cases a with ⟨ha, ea⟩ | ⟨ha, ea⟩
  · exact .inr ⟨ha, by simp [execLdi, ea, bind, Except.bind, pure, Except.pure]⟩
  · exact .inl ⟨ha, by simp [execLdi, ea, bind, Except.bind]⟩

/-- Everything PRN can do. -/
theorem execPrn_cases (a : Byte) (s : State w) :
    (8 ≤ a.toNat ∧ execPrn a s = .next (s.raise ⟨.invalidRegister, a.toNat⟩)) ∨
    ∃ ha : a.toNat < 8, execPrn a s = .next ((s.emit (s.readReg ⟨a.toNat, ha⟩)).advance 2) := by
  rcases regField_cases a with ⟨ha, ea⟩ | ⟨ha, ea⟩
  · exact .inr ⟨ha, by simp [execPrn, ea, bind, Except.bind, pure, Except.pure]⟩
  · exact .inl ⟨ha, by simp [execPrn, ea, bind, Except.bind]⟩

/-- With room for three bytes the lookahead reads all three. -/
theorem lookahead_of_le_253 {m : Memory} {pc : Nat} (h : pc ≤ 253) :
    lookahead m pc = [m.get pc, m.get (pc + 1), m.get (pc + 2)] := by
  simp [lookahead, memRead_of_lt (show pc < 256 by omega), memRead_of_lt (show pc + 1 < 256 by omega),
    memRead_of_lt (show pc + 2 < 256 by omega), Except.toOption]

/-- At 254 the lookahead stops after two bytes. -/
theorem lookahead_254 (m : Memory) : lookahead m 254 = [m.get 254, m.get 255] := by
  simp [lookahead, Except.toOption]

/-- At 255 only the opcode byte is read. -/
theorem lookahead_255 (m : Memory) : lookahead m 255 = [m.get 255] := by
  simp [lookahead, Except.toOption]

/-- Above 255 nothing is read. -/
theorem lookahead_of_gt {m : Memory} {pc : Nat} (h : 255 < pc) : lookahead m pc = [] := by
  simp [lookahead, memRead_of_le (show 256 ≤ pc by omega), memRead_of_le (show 256 ≤ pc + 1 by omega),
    memRead_of_le (show 256 ≤ pc + 2 by omega), Except.toOption]

/-- One turn of the cycle on a Running core is the fetched instruction's execution, or the fetch's fault. -/
theorem cycle_running (execute : Instr → State w → Result w) {s : State w} (h : s.run = .running) :
    (∃ i, fetch s = .ok i ∧ cycle execute s = execute i s) ∨
      ∃ f, fetch s = .error f ∧ cycle execute s = .next (s.raise f) := by
  rcases hf : fetch s with f | i
  · exact .inr ⟨f, rfl, by simp [cycle, h, hf]⟩
  · exact .inl ⟨i, rfl, by simp [cycle, h, hf]⟩

/-- Only a Running core has a turn of the cycle. -/
theorem running_of_cycle {execute : Instr → State w → Result w} {s t : State w} (h : cycle execute s = .next t) :
    s.run = .running := by
  unfold cycle at h
  split at h
  · assumption
  · cases h
  · cases h

/-- A step of a Running core is the fetched instruction's meaning, or the fetch's fault. -/
theorem step_running {s : State} (h : s.run = .running) :
    (∃ i, fetch s = .ok i ∧ step s = exec i s) ∨ ∃ f, fetch s = .error f ∧ step s = .next (s.raise f) :=
  cycle_running exec h

/-- Only a Running core steps. -/
theorem running_of_step {s t : State} (h : step s = .next t) : s.run = .running := running_of_cycle h

/-- `exec` is the meaning at the default width (R7). -/
theorem exec_eq_execAt (i : Instr) (s : State) : exec i s = execAt i s := by cases i <;> rfl

/-- `step` is the step at the default width (R7), so what the ports do there is what the machine does. -/
@[simp] theorem stepAt_eq_step (s : State) : stepAt s = step s :=
  congrArg (fun execute => cycle execute s) (funext fun i => funext fun t => (exec_eq_execAt i t).symm)

end Sys2Proof.Machine
end

