-- ==== Sys2Proof/Tests/Slice0.lean ====
section
/-! SUPPORT. The model's own tests: expected values from spec/95_test_vectors.md and the rules, and for every statement
with hypotheses a concrete case that meets them. -/

namespace Sys2Proof.Tests

open Sys2Proof.Machine Sys2Proof.Statements

/-- A small Running state: bytes at the pc, registers, flags. -/
def st (pc : Nat) (bytes : List Byte) (x : Vector Word 8 := #v[0, 0, 0, 0, 0, 0, 0, 0])
    (f : Flags := ⟨false, false, false⟩) : State :=
  { mem := placeBytes [] pc bytes, x := x, pc := pc, flags := f, run := .running, out := [] }

/-- What a field reads in a next state. -/
def nextView {α : Type} {w : Nat} (o : Result w) (view : State w → α) : Option α :=
  match o with
  | .next t => some (view t)
  | .fault _ => none
  | .refused _ => none

/-- What a field reads after one step, if there is one. -/
def after {α : Type} (s : State) (view : State → α) : Option α := nextView (step s) view

/-- Whether a step answers a next state. -/
def steps (s : State) : Bool := (after s fun _ => ()).isSome

/-- The fault record after one step, if it faults. -/
def record (s : State) : Option FaultRecord :=
  match after s State.run with
  | some (.faulted r) => some r
  | _ => none

/-! ## Well-formedness: an ill-formed term for every register field -/

theorem test_wellFormed_refuses_field_a :
    ∀ i ∈ [Instr.ldi 8 0, .prn 255, .mul 8 0, .cmp 9 0, .jmp 8, .jeq 128, .jne 8], i.wellFormed = false := by decide

theorem test_wellFormed_refuses_field_b : ∀ i ∈ [Instr.mul 7 8, .cmp 0 255], i.wellFormed = false := by decide

theorem test_wellFormed_accepts :
    ∀ i ∈ [Instr.ldi 7 255, .prn 7, .mul 7 0, .hlt, .cmp 0 7, .jmp 7, .jeq 7, .jne 7], i.wellFormed = true := by decide

/-! ## Decoding, every constructor, from the bits of R75 and R71 -/

theorem test_decode_ldi : decode [0b10000010, 0b00000100, 0b00101010] = .ok (.ldi 4 42, []) := by decide

theorem test_decode_prn : decode [0b01000111, 0b00000101] = .ok (.prn 5, []) := by decide

theorem test_decode_mul : decode [0b10100010, 0b00000001, 0b00000010] = .ok (.mul 1 2, []) := by decide

theorem test_decode_hlt : decode [0b00000001, 0xFF] = .ok (.hlt, [0xFF]) := by decide

theorem test_decode_cmp : decode [0b10100111, 0b00000110, 0b00000111] = .ok (.cmp 6 7, []) := by decide

theorem test_decode_jmp : decode [0b01010100, 0b00000010] = .ok (.jmp 2, []) := by decide

theorem test_decode_jeq : decode [0b01010101, 0b00000011] = .ok (.jeq 3, []) := by decide

theorem test_decode_jne : decode [0b01010110, 0b00001001] = .ok (.jne 9, []) := by decide

/-- F1 to F5: 00, FF, A0, 02, 83 are no opcodes (R76). -/
theorem test_decode_rejects_unknown :
    ∀ op ∈ [(0x00 : Byte), 0xFF, 0xA0, 0x02, 0x83], decode [op, 0, 0] = .error (.unknownOpcode op) := by decide

theorem test_decode_rejects_missing_operand :
    decode [0x82] = .error (.missingOperand 1) ∧ decode [0x82, 9] = .error (.missingOperand 2) := by decide

/-- No two rows of the table share an opcode byte. -/
theorem test_table_rows_differ : (opcodeTable.map opcodeByte).Nodup := by decide

/-- The table's numbering: byte 0 lowest, operand bits above `nbits` zero. -/
theorem test_decodeTableWord :
    decodeTableWord 24 0x2A0482 = some (.ldi 4 42) ∧ decodeTableWord 8 0x2A0482 = some (.ldi 0 0) ∧
      decodeTableWord 16 0x0547 = some (.prn 5) ∧ decodeTableWord 8 0x01 = some .hlt ∧
      decodeTableWord 8 0xA0 = none := by decide

/-- Every row's word runs as the first instruction after reset. -/
theorem test_rows_run_from_reset :
    ∀ w ∈ [0x82, 0x47, 0xA2, 0x01, 0xA7, 0x54, 0x55, 0x56], steps (State.reset.withFetchWord 24 w) = true := by
  decide

/-! ## One step of each instruction (spec/95_test_vectors.md) -/

/-- V2, V9. -/
theorem test_ldi : after (st 0 [0x82, 7, 0xFF]) (fun t => (t.x[7], t.pc)) = some (255, 3) ∧
    record (st 255 [0x82]) = some ⟨.addressOutOfRange, 255, 256⟩ := by decide

/-- V8, V5: the second operand above 255, and a field of 8. -/
theorem test_ldi_faults : record (st 254 [0x82, 0]) = some ⟨.addressOutOfRange, 254, 256⟩ ∧
    record (st 0 [0x82, 8, 5]) = some ⟨.invalidRegister, 0, 8⟩ := by decide

/-- V12, V14: unsigned value, the last two bytes of memory. -/
theorem test_prn : after (st 0 [0x47, 1] #v[0, 255, 0, 0, 0, 0, 0, 0]) State.out = some [255] ∧
    after (st 254 [0x47, 0] #v[3, 0, 0, 0, 0, 0, 0, 0]) (fun t => (t.out, t.pc)) = some ([3], 256) := by decide

/-- V13: a faulting PRN emits nothing. -/
theorem test_prn_faults : after (st 0 [0x47, 8]) State.out = some [] ∧
    record (st 0 [0x47, 8]) = some ⟨.invalidRegister, 0, 8⟩ := by decide

/-- V21, V25: overflow wraps, and one register named twice is squared. -/
theorem test_mul : after (st 0 [0xA2, 0, 1] #v[200, 2, 0, 0, 0, 0, 0, 0]) (fun t => (t.x[0], t.x[1])) = some (144, 2) ∧
    after (st 0 [0xA2, 3, 3] #v[0, 0, 0, 12, 0, 0, 0, 0]) (fun t => t.x[3]) = some 144 := by decide

/-- V30, V31: field a before field b, operand range before fields. -/
theorem test_mul_faults : record (st 0 [0xA2, 8, 9]) = some ⟨.invalidRegister, 0, 8⟩ ∧
    record (st 254 [0xA2, 9]) = some ⟨.addressOutOfRange, 254, 256⟩ := by decide

/-- V37, V39: unsigned, and earlier flags overwritten. -/
theorem test_cmp :
    after (st 0 [0xA7, 0, 1] #v[127, 128, 0, 0, 0, 0, 0, 0]) State.flags = some ⟨false, true, false⟩ ∧
    after (st 0 [0xA7, 0, 1] #v[9, 9, 0, 0, 0, 0, 0, 0] ⟨false, false, true⟩) State.flags =
      some ⟨true, false, false⟩ := by decide

/-- V36, V40. -/
theorem test_cmp_greater_and_fault :
    after (st 0 [0xA7, 0, 1] #v[255, 0, 0, 0, 0, 0, 0, 0]) State.flags = some ⟨false, false, true⟩ ∧
    after (st 0 [0xA7, 0, 8] #v[0, 0, 0, 0, 0, 0, 0, 0] ⟨false, true, false⟩) (fun t => (t.flags, t.run)) =
      some (⟨false, true, false⟩, .faulted ⟨.invalidRegister, 0, 8⟩) := by decide

/-- V41, V42. -/
theorem test_hlt : after (st 6 [0x01]) (fun t => (t.pc, t.run)) = some (7, .halted) ∧
    after (st 255 [0x01]) (fun t => (t.pc, t.run)) = some (256, .halted) := by decide

/-- J1, J4. -/
theorem test_jmp : after (st 20 [0x54, 2] #v[0, 0, 12, 0, 0, 0, 0, 0]) State.pc = some 12 ∧
    record (st 255 [0x54]) = some ⟨.addressOutOfRange, 255, 256⟩ := by decide

/-- J5, J6. -/
theorem test_jeq :
    after (st 12 [0x55, 2] #v[0, 0, 17, 0, 0, 0, 0, 0] ⟨true, false, false⟩) State.pc = some 17 ∧
    after (st 12 [0x55, 2] #v[0, 0, 17, 0, 0, 0, 0, 0] ⟨false, true, false⟩) State.pc = some 14 := by decide

/-- J11: the field is checked although the branch is not taken (D6). -/
theorem test_jeq_untaken_faults : record (st 0 [0x55, 9]) = some ⟨.invalidRegister, 0, 9⟩ := by decide

/-- J7, J12. -/
theorem test_jne : after (st 20 [0x56, 3] #v[0, 0, 0, 12, 0, 0, 0, 0]) State.pc = some 12 ∧
    after (st 254 [0x56, 0] #v[3, 0, 0, 0, 0, 0, 0, 0] ⟨true, false, false⟩) State.pc = some 256 := by decide

/-- F2, F6, F7, F8. -/
theorem test_fetch_faults : record (st 0 [0xFF]) = some ⟨.unknownInstruction, 0, 0xFF⟩ ∧
    record (st 255 [0xFF]) = some ⟨.unknownInstruction, 255, 0xFF⟩ ∧
    record (st 256 []) = some ⟨.addressOutOfRange, 256, 256⟩ ∧
    record (st 258 []) = some ⟨.addressOutOfRange, 258, 258⟩ := by decide

/-- V43: a Halted core has no step. -/
theorem test_halted_has_no_step : steps { st 0 [0x01] with run := .halted } = false := by decide

/-- R120: the unreachable Add wraps; at W = 32, 20 * 20 would print 400 (R121). -/
theorem test_alu : addWrap (200 : Word) 100 = 44 ∧ mulWrap (20 : Word) 20 = 144 ∧
    mulWrap (20 : BitVec 32) 20 = 400 := by decide

/-! ## Ports -/

/-- R180, D19: at 255 the two later bytes are absent. -/
theorem test_trace : (traceOf (st 255 [0x01])).byte0 = some 0x01 ∧ (traceOf (st 255 [0x01])).byte1 = none := by decide

/-- R36, F2. -/
theorem test_status : after (st 0 [0xFF]) statusOf = some ⟨2, 1, 0, 0xFF⟩ ∧
    after (st 255 [0x82]) statusOf = some ⟨2, 2, 255, 256⟩ := by decide

/-- R192: the image lies from address 0 up, and the rest reads 0. -/
theorem test_load : (loadBytes [] 0 [0x82, 0, 8]).toOption.map (fun m => (m.get 0, m.get 1, m.get 2, m.get 3)) =
    some (0x82, 0, 8, 0) := by decide

/-- R7, R121: a core of 32 bits runs MUL without wrapping where the default core wraps. -/
theorem test_width_32 : nextView (stepAt { State.resetAt 32 with
    mem := placeBytes [] 0 [0xA2, 0, 0], x := #v[20, 0, 0, 0, 0, 0, 0, 0] }) (fun t => (t.x[0].toNat, t.pc)) =
      some (400, 3) := by decide

/-- R79: labels, comments and the three number forms. -/
theorem test_assemble :
    assemble ("LDI R3, loop ; target\nloop: MUL R0, R1\nHLT".toList) = some [0x82, 3, 3, 0xA2, 0, 1, 0x01] ∧
      assemble ("LDI R1, 0x1F\nLDI R9, 0b101\nJNE R8".toList) = some [0x82, 1, 31, 0x82, 9, 5, 0x56, 8] := by decide

/-- Log 11: a label name that begins with a digit can be defined and not used. A label at the end names the address one
past the last byte. -/
theorem test_label_names : assemble "1abc: HLT".toList = some [0x01] ∧ assemble "1abc: LDI R0, 1abc".toList = none ∧
    assemble "LDI R0, end\nend:".toList = some [0x82, 0, 3] := by decide

/-! ## Witnesses: every statement's hypotheses can be met -/

/-- A state for the statements about any Running state. -/
abbrev w0 : State := st 253 [0x82, 7, 255] #v[1, 2, 3, 4, 5, 6, 7, 8]

theorem witness_decoded_bytes : decode [0x82, 7, 255, 1] = .ok (.ldi 7 255, [1]) := by decide

theorem witness_illegal_opcode : ∀ s ∈ [st 0 [], st 255 [0xFF]],
    s.run = .running ∧ s.pc ≤ 255 ∧ decodeOpcode (s.mem.get s.pc) = none := by decide

theorem witness_illegal_ranges :
    ∀ op ∈ [(0x00 : Byte), 0x02, 0x46, 0x48, 0x53, 0x57, 0x81, 0x83, 0xA1, 0xA3, 0xA6, 0xA8, 0xFF],
      decodeOpcode op = none := by decide

theorem witness_step_runs_decoded : w0.run = .running ∧ w0.pc + (encode (.ldi 7 255)).length ≤ 256 ∧
    ∀ (k : Nat) (h : k < (encode (.ldi 7 255)).length), w0.mem.get (w0.pc + k) = (encode (.ldi 7 255))[k] := by decide

theorem witness_running : w0.run = .running := rfl

theorem witness_stopped : ({ w0 with run := .halted } : State).run = .halted ∧
    ∃ r, ({ w0 with run := .faulted ⟨.invalidRegister, 0, 8⟩ } : State).run = .faulted r := ⟨rfl, _, rfl⟩

theorem witness_opcode_fetch : 255 < (st 256 []).pc ∧ (st 255 [0xFF]).pc ≤ 255 ∧
    decodeOpcode ((st 255 [0xFF]).mem.get 255) = none ∧ decodeOpcode ((st 255 [0x01]).mem.get 255) = some .hlt ∧
    255 + opcodeArity .hlt ≤ 255 := by decide

theorem witness_operand_fetch :
    (st 255 [0x47]).mem.get 255 = opcodeByte .prn ∧ opcodeArity .prn ≥ 1 ∧ 255 + 1 > 255 ∧
    (st 254 [0x82, 7]).mem.get 254 = opcodeByte .ldi ∧ opcodeArity .ldi = 2 ∧ 254 + 1 ≤ 255 ∧ 254 + 2 > 255 ∧
    w0.mem.get 253 = opcodeByte .ldi ∧ 253 + opcodeArity .ldi ≤ 255 := by decide

/-- The lookahead bytes after a HLT differ, the instruction's own do not. -/
theorem witness_unused_lookahead : (st 0 [0x01]).mem.get 0 = opcodeByte .hlt ∧
    (∀ k, k < opcodeLength .hlt → Memory.get [(0, 0x01), (1, 0x47)] (0 + k) = (st 0 [0x01]).mem.get (0 + k)) ∧
    steps (st 0 [0x01]) = true := by decide

theorem witness_ldi : ∀ s ∈ [st 255 [0x82], st 254 [0x82, 0], st 253 [0x82, 7, 255], st 0 [0x82, 8, 5]],
    s.run = .running ∧ s.pc ≤ 255 ∧ s.mem.get s.pc = 0x82 := by decide

theorem witness_prn : ∀ s ∈ [st 255 [0x47], st 254 [0x47, 7], st 0 [0x47, 8]],
    s.run = .running ∧ s.pc ≤ 255 ∧ s.mem.get s.pc = 0x47 := by decide

theorem witness_mul : ∀ s ∈ [st 255 [0xA2], st 254 [0xA2, 0], st 253 [0xA2, 7, 7], st 0 [0xA2, 7, 8], st 0 [0xA2, 8, 0]],
    s.run = .running ∧ s.pc ≤ 255 ∧ s.mem.get s.pc = 0xA2 := by decide

theorem witness_cmp : ∀ s ∈ [st 255 [0xA7], st 254 [0xA7, 0], st 253 [0xA7, 7, 7], st 0 [0xA7, 7, 8], st 0 [0xA7, 8, 0]],
    s.run = .running ∧ s.pc ≤ 255 ∧ s.mem.get s.pc = 0xA7 := by decide

theorem witness_hlt : ∀ s ∈ [st 255 [0x01], st 0 [0x01]],
    s.run = .running ∧ s.pc ≤ 255 ∧ s.mem.get s.pc = 0x01 := by decide

theorem witness_jmp : ∀ s ∈ [st 255 [0x54], st 254 [0x54, 7], st 0 [0x54, 8]],
    s.run = .running ∧ s.pc ≤ 255 ∧ s.mem.get s.pc = 0x54 := by decide

theorem witness_jeq : ∀ s ∈ [st 255 [0x55], st 254 [0x55, 7], st 0 [0x55, 8]],
    s.run = .running ∧ s.pc ≤ 255 ∧ s.mem.get s.pc = 0x55 := by decide

theorem witness_jne : ∀ s ∈ [st 255 [0x56], st 254 [0x56, 7], st 0 [0x56, 8]],
    s.run = .running ∧ s.pc ≤ 255 ∧ s.mem.get s.pc = 0x56 := by decide

theorem witness_register_fields : (7 : Byte).toNat < 8 ∧ (0 : Byte).toNat < 8 ∧ 7 < (8 : Byte).toNat := by decide

/-- Unequal registers, and equal ones. -/
theorem witness_complementary : ∃ u v, exec (.cmp 0 7) w0 = .next u ∧ exec (.cmp 7 7) w0 = .next v ∧
    w0.readReg 0 ≠ w0.readReg 7 := ⟨_, _, rfl, rfl, by decide⟩

theorem witness_prn_twice : (∀ i ∈ [Instr.prn 1, .ldi 6 0], ¬ writesReg i 7) ∧
    ∃ t u v, exec (.prn 7) w0 = .next t ∧ execAll [.prn 1, .ldi 6 0] t = .next u ∧ exec (.prn 7) u = .next v := by
  refine ⟨?_, _, _, _, rfl, rfl, rfl⟩
  intro i hi
  simp at hi
  rcases hi with rfl | rfl <;> simp [writesReg]

/-- Both forms, with a legal and an illegal field. -/
theorem witness_frames : ∀ i ∈ [Instr.ldi 7 1, .ldi 8 1, .mul 7 7, .mul 7 8, .prn 7, .prn 8, .cmp 7 0, .cmp 8 0, .hlt,
    .jmp 7, .jmp 8, .jeq 7, .jeq 8, .jne 7, .jne 8], ∃ t, exec i w0 = .next t := by
  intro i hi
  simp at hi
  rcases hi with rfl | rfl | rfl | rfl | rfl | rfl | rfl | rfl | rfl | rfl | rfl | rfl | rfl | rfl | rfl <;>
    exact ⟨_, rfl⟩

/-- A register file that differs from w0's in every register that CMP R0, R1 does not read. -/
theorem witness_registers_read : (∀ r : Reg, readsReg (.cmp 0 1) w0.flags.E r →
    (#v[1, 2, 0, 0, 0, 0, 0, 0] : Vector Word 8)[r.val] = w0.readReg r) ∧ ∃ t, exec (.cmp 0 1) w0 = .next t := by
  refine ⟨?_, _, rfl⟩
  simp only [readsReg]
  decide

theorem witness_faulting_step : ∃ t r, step (st 0 [0xFF]) = .next t ∧ t.run = .faulted r := ⟨_, _, rfl, rfl⟩

/-- Two Faulted states with different causes, and two with the same. -/
theorem witness_two_faults : ∃ r q p : FaultRecord, ({ w0 with run := .faulted r } : State).run = .faulted r ∧
    r.cause ≠ q.cause ∧ r.cause = p.cause :=
  ⟨⟨.invalidRegister, 0, 8⟩, ⟨.addressOutOfRange, 0, 256⟩, ⟨.invalidRegister, 3, 9⟩, rfl, by decide, rfl⟩

theorem witness_well_formed_at_pc : (Instr.ldi 7 255).wellFormed = true := by decide

/-- A faulting step for each cause that exists. -/
theorem witness_fault_causes : (record (st 0 [0xFF])).map FaultRecord.cause = some .unknownInstruction ∧
    (record (st 256 [])).map FaultRecord.cause = some .addressOutOfRange ∧
    (record (st 0 [0x47, 8])).map FaultRecord.cause = some .invalidRegister := by decide

theorem witness_compare_writes : ∃ t, exec (.cmp 0 1) w0 = .next t ∧ (Instr.cmp 0 1).wellFormed = true := ⟨_, rfl, rfl⟩

theorem witness_two_flag_states : (⟨false, true, false⟩ : Flags).E = w0.flags.E ∧
    ∃ t, Sys2Proof.core.run 1 w0 = .next t := ⟨rfl, _, rfl⟩

theorem witness_flags : w0.flags.unset ∧ (⟨true, false, false⟩ : Flags).exactlyOne ∧ ∃ t, step w0 = .next t :=
  ⟨rfl, .inl rfl, _, rfl⟩

theorem witness_output : ∃ t u, exec (.prn 7) w0 = .next t ∧ exec (.ldi 0 0) w0 = .next u ∧
    (∀ a, Instr.ldi 0 0 = .prn a → ¬ a.toNat < 8) := ⟨_, _, rfl, rfl, fun _ h => by cases h⟩

theorem witness_memory_bounds : Memory.wf [(0, 1), (255, 2)] ∧ 255 < 256 ∧ 255 ≤ 255 := by decide

theorem witness_equal_memories : Memory.wf [(3, 1)] ∧ ∀ a, a ≤ 255 → Memory.get [(3, 1)] a = Memory.get [(3, 1)] a :=
  ⟨by decide, fun _ _ => rfl⟩

theorem witness_first_illegal_field : 7 < (8 : Byte).toNat ∧ (7 : Byte).toNat ≤ 7 ∧
    (Instr.mul 7 0).wellFormed = true := by decide

/-- A halted core before and after the start; the load is accepted only before. -/
theorem witness_stopped_platform : ∃ q r, ({ w0 with run := .halted } : State).run ≠ .running ∧
    Platform.apply ⟨{ w0 with run := .halted }, true⟩ (.reset w0.x) = .next q ∧
    Platform.apply ⟨{ w0 with run := .halted }, false⟩ .start = .next r := ⟨_, _, by decide, rfl, rfl⟩

theorem witness_images : ([0x82, 0, 8] : List Byte).length ≤ 256 ∧ (List.replicate 256 (0x01 : Byte)).length ≤ 256 ∧
    256 < (List.replicate 257 (0x01 : Byte)).length :=
  ⟨by decide, by rw [List.length_replicate], by rw [List.length_replicate]; decide⟩

theorem witness_invariant : w0.Inv :=
  ⟨by decide, by decide, .inl rfl, fun _ h => by cases h⟩

/-- The invariant in a Halted and in a Faulted state, with the pc at the top of its range. -/
theorem witness_invariant_stopped : ({ w0 with run := .halted } : State).Inv ∧
    ({ w0 with pc := 258, run := .faulted ⟨.addressOutOfRange, 258, 258⟩ } : State).Inv :=
  ⟨⟨by decide, by decide, .inl rfl, fun _ h => by cases h⟩,
    ⟨by decide, by decide, .inl rfl, fun r h => by cases h; exact ⟨by simp [FaultRecord.legal], rfl⟩⟩⟩

theorem witness_pc_256 : w0.pc ≤ 256 ∧ ∃ t, Sys2Proof.core.run 2 w0 = .next t := ⟨by decide, _, rfl⟩

theorem witness_platform_moves : ∃ p q r u, Platform.apply ⟨w0, false⟩ (.load [0x01]) = .next p ∧
    Platform.apply ⟨w0, false⟩ .start = .next q ∧ Platform.apply ⟨w0, true⟩ .coreStep = .next r ∧
    Platform.apply ⟨w0, true⟩ (.reset w0.x) = .next u := ⟨_, _, _, _, rfl, rfl, rfl, rfl⟩

theorem witness_exit_codes : exitCodesValid fun c => match c with
    | none => 0
    | some c => (causeCode c : Int) :=
  ⟨rfl, fun c => by cases c <;> decide, fun c d => by cases c <;> cases d <;> decide⟩

theorem witness_ended_run : ∃ o, runFor 2 (st 0 [0x01]) = .ended o := ⟨_, rfl⟩

/-- Every number form of 0x2A, and a line's end with and without a comment. -/
theorem witness_line_forms : ["42".toList, "0x2a".toList, "0x2A".toList, "0b101010".toList] = numberTexts 42 ∧
    endsLine [] ∧ endsLine " ; target".toList :=
  ⟨rfl, .inl rfl, .inr ⟨" target".toList, by decide, rfl⟩⟩

/-- A label used before its line, at an address above 0. -/
theorem witness_labelled_program : ∃ lines : List SourceLine,
    (∀ l ∈ lines, ∀ name, l.label = some name → labelName name) ∧ (lines.filterMap SourceLine.label).Nodup ∧
    ∀ l ∈ lines, ∀ a name, l.instr = .ldiLabel a name →
      some name ∈ lines.map SourceLine.label ∧ labelAddress lines name ≤ 255 := by
  refine ⟨[⟨none, .ldiLabel 3 ['l', '2']⟩, ⟨some ['l', '2'], .plain (.prn 0)⟩], ?_, by decide, ?_⟩
  · intro l hl name h
    simp only [List.mem_cons, List.not_mem_nil, or_false] at hl
    rcases hl with rfl | rfl <;> cases h
    refine ⟨⟨'l', ['2'], rfl, rfl⟩, fun c hc => .inl ?_⟩
    simp only [List.mem_cons, List.not_mem_nil, or_false] at hc
    rcases hc with rfl | rfl <;> rfl
  · intro l hl a name h
    simp only [List.mem_cons, List.not_mem_nil, or_false] at hl
    rcases hl with rfl | rfl <;> cases h
    decide

/-- A Running and a Halted core of 32 bits. -/
theorem witness_width : (State.resetAt 32).run = .running ∧ ({ State.resetAt 32 with run := .halted } : State 32).run ≠ .running :=
  ⟨rfl, by decide⟩

theorem witness_load_on_memory : Memory.wf [(0, 1), (255, 2)] ∧ ([0x82, 0, 8] : List Byte).length ≤ 256 := by decide

end Sys2Proof.Tests
end

/-! The core at every register width (spec/00_scope.md R7): the ALU's results, and the whole step as the pseudocode of
R85. The fetch and the pseudocode split into the same four cases, and the executed case is compared one instruction at
a time. -/

namespace Sys2Proof.Machine

open Sys2Proof.Statements

section Alu

variable {w : Nat} (p q : BitVec w)

@[simp] theorem addWrap_toNat : (addWrap p q).toNat = (p.toNat + q.toNat) % 2 ^ w := BitVec.toNat_ofNat _ _

@[simp] theorem mulWrap_toNat : (mulWrap p q).toNat = (p.toNat * q.toNat) % 2 ^ w := BitVec.toNat_ofNat _ _

theorem compareFlags_E_iff : (compareFlags p q).E = true ↔ p = q := by
  simp [compareFlags, BitVec.toNat_inj]

theorem compareFlags_L_iff : (compareFlags p q).L = true ↔ p.toNat < q.toNat := decide_eq_true_iff

/-- Comparing two values sets exactly one flag, by the trichotomy of the order on numbers (R122). -/
theorem compareFlags_exactlyOne : (compareFlags p q).exactlyOne := by
  rcases Nat.lt_trichotomy p.toNat q.toNat with h | h | h
  · exact .inr (.inl (by simp [compareFlags, h, h.ne, h.le]))
  · exact .inl (by simp [compareFlags, h])
  · exact .inr (.inr (by simp [compareFlags, h, h.ne', h.le]))

end Alu

/-- Settles O39: each result is its value on natural numbers, reduced to the width. -/
theorem aluIsRightAtEveryWidth : Obligations.AluIsRightAtEveryWidth := fun _ p q =>
  ⟨addWrap_toNat p q, mulWrap_toNat p q, compareFlags_exactlyOne p q, compareFlags_E_iff p q, compareFlags_L_iff p q⟩

section Fetch

/-- The lookahead at an address of the core: the opcode byte, and as many of the next two bytes as stand below 256. -/
theorem lookahead_of_le_255 (m : Memory) {pc : Nat} (h : pc ≤ 255) :
    lookahead m pc = m.get pc :: [m.get (pc + 1), m.get (pc + 2)].take (255 - pc) := by
  obtain h | rfl | rfl : pc ≤ 253 ∨ pc = 254 ∨ pc = 255 := by omega
  · rw [lookahead_of_le_253 h, List.take_of_length_le (show 2 ≤ 255 - pc by omega)]
  · exact lookahead_254 m
  · exact lookahead_255 m

/-- With all operand bytes there, operand assembly gives the instruction of the opcode with those operands. -/
theorem decodeOperands_of_arity_le {o : Opcode} {bs : List Byte} (h : opcodeArity o ≤ bs.length) :
    ∃ i rest, decodeOperands o bs = .ok (i, rest) ∧ i.opcode = o ∧ i.operands = bs.take (opcodeArity o) := by
  rcases decodeOperands_cases o bs with ⟨i, rest, hd, rfl, hbs⟩ | ⟨hlt, -⟩
  · exact ⟨i, rest, hd, rfl, by rw [hbs, List.take_left' (operands_length i)]⟩
  · omega

/-- With an operand byte missing, operand assembly names the first one that is. -/
theorem decodeOperands_of_lt_arity {o : Opcode} {bs : List Byte} (h : bs.length < opcodeArity o) :
    decodeOperands o bs = .error (.missingOperand (bs.length + 1)) := by
  rcases decodeOperands_cases o bs with ⟨i, rest, -, rfl, hbs⟩ | ⟨-, hd⟩
  · rw [hbs, List.length_append, operands_length] at h
    omega
  · exact hd

theorem opcodeArity_le_two (o : Opcode) : opcodeArity o ≤ 2 := by cases o <;> decide

variable {w : Nat} {s : State w} {o : Opcode}

/-- R80: an opcode fetch above 255. -/
theorem fetch_of_pc_gt (h : 255 < s.pc) : fetch s = .error ⟨.addressOutOfRange, s.pc⟩ := by
  simp [fetch, lookahead_of_gt h, decode, fetchFault]

/-- R83: an opcode byte of no row. -/
theorem fetch_of_unknown (h : s.pc ≤ 255) (ho : decodeOpcode (s.mem.get s.pc) = none) :
    fetch s = .error ⟨.unknownInstruction, (s.mem.get s.pc).toNat⟩ := by
  simp [fetch, lookahead_of_le_255 _ h, decode, ho, fetchFault]

/-- R82: the first operand byte that does not fit stands at address 256. -/
theorem fetch_of_missing (h : s.pc ≤ 255) (ho : decodeOpcode (s.mem.get s.pc) = some o)
    (hfit : 255 < s.pc + opcodeArity o) : fetch s = .error ⟨.addressOutOfRange, 256⟩ := by
  have := opcodeArity_le_two o
  have hlen : ([s.mem.get (s.pc + 1), s.mem.get (s.pc + 2)].take (255 - s.pc)).length = 255 - s.pc := by simp; omega
  have hd := decodeOperands_of_lt_arity (o := o) (hlen.trans_lt (by omega))
  rw [hlen] at hd
  simp only [fetch, lookahead_of_le_255 _ h, decode, ho, hd, fetchFault]
  rw [show s.pc + (255 - s.pc + 1) = 256 by omega]

/-- An instruction that stands whole below 256 is fetched with the bytes after its opcode as operands. -/
theorem fetch_of_fits (ho : decodeOpcode (s.mem.get s.pc) = some o) (hfit : s.pc + opcodeArity o ≤ 255) :
    ∃ i, fetch s = .ok i ∧ i.opcode = o ∧
      i.operands = [s.mem.get (s.pc + 1), s.mem.get (s.pc + 2)].take (opcodeArity o) := by
  have := opcodeArity_le_two o
  obtain ⟨i, rest, hd, hi, hops⟩ := decodeOperands_of_arity_le (o := o)
    (bs := [s.mem.get (s.pc + 1), s.mem.get (s.pc + 2)].take (255 - s.pc)) (by simp; omega)
  refine ⟨i, ?_, hi, ?_⟩
  · simp only [fetch, lookahead_of_le_255 _ (show s.pc ≤ 255 by omega), decode, ho, hd]
  · rw [hops, List.take_take, Nat.min_eq_left (by omega)]

end Fetch

section Cycle

variable {w : Nat} {execute : Instr → State w → Result w} {s : State w}

/-- A Running core executes the instruction it fetches. -/
theorem cycle_of_fetch_ok (h : s.run = .running) {i : Instr} (hf : fetch s = .ok i) :
    cycle execute s = execute i s := by
  simp [cycle, h, hf]

/-- The model's fault entry is the one the statements write. -/
theorem raise_eq_faultedWith (s : State w) (c : FaultCause) (n : Nat) : s.raise ⟨c, n⟩ = s.faultedWith c n := rfl

/-- A Running core enters the fault of its fetch. -/
theorem cycle_of_fetch_error (h : s.run = .running) {c : FaultCause} {n : Nat} (hf : fetch s = .error ⟨c, n⟩) :
    cycle execute s = .next (s.faultedWith c n) := by
  simp [cycle, h, hf, raise_eq_faultedWith]

end Cycle

section Pseudocode

variable {w : Nat} {s : State w} {o : Opcode}

/-- The end of R85's pseudocode, once the operands are fetched: the check of the register fields (R84), then the rule of
the instruction. `stepAsR85_of_fits` ties it to `stepAsR85`. -/
def checkedRule (o : Opcode) (a b : Nat) (s : State w) : State w :=
  match (fieldsOf o a b).find? (fun f => f > 7) with
  | some f => s.faultedWith .invalidRegister f
  | none => ruleOf o a b s

theorem stepAsR85_of_pc_gt (h : 255 < s.pc) : stepAsR85 s = s.faultedWith .addressOutOfRange s.pc := if_pos h

theorem stepAsR85_of_unknown (h : s.pc ≤ 255) (ho : decodeOpcode (s.mem.get s.pc) = none) :
    stepAsR85 s = s.faultedWith .unknownInstruction (s.mem.get s.pc).toNat := by
  simp [stepAsR85, Nat.not_lt.2 h, ho]

theorem stepAsR85_of_missing (h : s.pc ≤ 255) (ho : decodeOpcode (s.mem.get s.pc) = some o)
    (hfit : 255 < s.pc + opcodeArity o) : stepAsR85 s = s.faultedWith .addressOutOfRange 256 := by
  have := opcodeArity_le_two o
  obtain hpc | ⟨hpc, ha⟩ : s.pc = 255 ∨ s.pc = 254 ∧ opcodeArity o = 2 := by omega
  · have ha : 1 ≤ opcodeArity o := by omega
    rw [hpc] at ho
    simp [stepAsR85, hpc, ho, ha]
  · rw [hpc] at ho
    simp [stepAsR85, hpc, ho, ha]

theorem stepAsR85_of_fits (ho : decodeOpcode (s.mem.get s.pc) = some o) (hfit : s.pc + opcodeArity o ≤ 255) :
    stepAsR85 s = checkedRule o (s.mem.get (s.pc + 1)).toNat (s.mem.get (s.pc + 2)).toNat s := by
  have h0 : ¬ s.pc > 255 := by omega
  have h1 : ¬ (opcodeArity o ≥ 1 ∧ s.pc + 1 > 255) := by omega
  have h2 : ¬ (opcodeArity o = 2 ∧ s.pc + 2 > 255) := by omega
  simp only [stepAsR85, h0, h1, h2, ho, if_false]
  rfl

theorem checkedRule_of_illegal {a b f : Nat} (h : (fieldsOf o a b).find? (fun f => f > 7) = some f) :
    checkedRule o a b s = s.faultedWith .invalidRegister f := by
  simp [checkedRule, h]

theorem checkedRule_of_legal {a b : Nat} (h : ∀ f ∈ fieldsOf o a b, f < 8) : checkedRule o a b s = ruleOf o a b s := by
  have : (fieldsOf o a b).find? (fun f => f > 7) = none := by
    simpa [List.find?_eq_none] using fun f hf => Nat.le_of_lt_succ (h f hf)
  simp [checkedRule, this]

end Pseudocode

section Rules

variable {w : Nat} (s : State w) {a b : Nat}

/-- The pseudocode's register file, as a list of numbers, reads what `readReg` reads. -/
theorem readReg_toNat_eq_getD (ha : a < 8) : (s.x.toList.getD a 0).toNat = (s.readReg ⟨a, ha⟩).toNat := by
  simp [State.readReg, List.getD_eq_getElem?_getD, ha]

/-- The pseudocode's register write is `writeReg`. -/
theorem setIfInBounds_eq_writeReg (ha : a < 8) (v : Word w) :
    s.x.setIfInBounds a v = (s.writeReg ⟨a, ha⟩ v).x := by
  ext i hi
  simp [State.writeReg, Vector.getElem_set, Vector.getElem_setIfInBounds]

theorem ruleOf_ldi (ha : a < 8) (v : Byte) :
    ruleOf .ldi a v.toNat s = (s.writeReg ⟨a, ha⟩ (immField v)).advance 3 := by
  simp only [ruleOf, setIfInBounds_eq_writeReg s ha, BitVec.ofNat_toNat]
  rfl

theorem ruleOf_prn (ha : a < 8) : ruleOf .prn a b s = (s.emit (s.readReg ⟨a, ha⟩)).advance 2 := by
  simp only [ruleOf, readReg_toNat_eq_getD s ha, BitVec.ofNat_toNat, BitVec.setWidth_eq]
  rfl

theorem ruleOf_mul (ha : a < 8) (hb : b < 8) : ruleOf .mul a b s =
    (s.writeReg ⟨a, ha⟩ (mulWrap (s.readReg ⟨a, ha⟩) (s.readReg ⟨b, hb⟩))).advance 3 := by
  simp only [ruleOf, setIfInBounds_eq_writeReg s ha, readReg_toNat_eq_getD s ha, readReg_toNat_eq_getD s hb]
  rfl

theorem ruleOf_cmp (ha : a < 8) (hb : b < 8) : ruleOf .cmp a b s =
    (s.setFlags (compareFlags (s.readReg ⟨a, ha⟩) (s.readReg ⟨b, hb⟩))).advance 3 := by
  simp only [ruleOf, readReg_toNat_eq_getD s ha, readReg_toNat_eq_getD s hb]
  rfl

theorem ruleOf_jmp (ha : a < 8) : ruleOf .jmp a b s = s.jumpTo (s.readReg ⟨a, ha⟩).toNat := by
  simp only [ruleOf, readReg_toNat_eq_getD s ha]
  rfl

theorem ruleOf_jeq (ha : a < 8) : ruleOf .jeq a b s =
    if s.flags.E then s.jumpTo (s.readReg ⟨a, ha⟩).toNat else s.advance 2 := by
  simp only [ruleOf, readReg_toNat_eq_getD s ha]
  split <;> rfl

theorem ruleOf_jne (ha : a < 8) : ruleOf .jne a b s =
    if !s.flags.E then s.jumpTo (s.readReg ⟨a, ha⟩).toNat else s.advance 2 := by
  simp only [ruleOf, readReg_toNat_eq_getD s ha]
  cases s.flags.E <;> rfl

end Rules

section Execution

variable {w : Nat} {s : State w} {o : Opcode} {a b : Byte}

/-- An operation on one register field that raises an illegal field and otherwise follows its rule is the checked
rule. -/
theorem eq_checkedRule_of_oneField {n : Nat} {r : Result w} {t : a.toNat < 8 → State w}
    (hfields : fieldsOf o a.toNat n = [a.toNat])
    (hr : (8 ≤ a.toNat ∧ r = .next (s.raise ⟨.invalidRegister, a.toNat⟩)) ∨ ∃ ha, r = .next (t ha))
    (hrule : ∀ ha, ruleOf o a.toNat n s = t ha) : r = .next (checkedRule o a.toNat n s) := by
  rcases hr with ⟨ha, rfl⟩ | ⟨ha, rfl⟩
  · rw [checkedRule_of_illegal (f := a.toNat) (by simp [hfields, show 7 < a.toNat from ha]), raise_eq_faultedWith]
  · rw [checkedRule_of_legal (by simpa [hfields] using ha), hrule ha]

/-- An ALU instruction whose operation always succeeds and follows its rule is the checked rule: `a` is checked before
`b` on both sides (R84). -/
theorem aluInstr_eq_checkedRule {op : AluOp} (hfields : fieldsOf o a.toNat b.toNat = [a.toNat, b.toNat])
    (hrule : ∀ (ha : a.toNat < 8) (hb : b.toNat < 8), ∃ t, aluApply op ⟨a.toNat, ha⟩ ⟨b.toNat, hb⟩ s = .ok t ∧
      ruleOf o a.toNat b.toNat s = t.advance 3) :
    aluInstr op a b s = .next (checkedRule o a.toNat b.toNat s) := by
  rcases aluInstr_cases op a b s with ⟨ha, hr⟩ | ⟨ha, hb, hr⟩ | ⟨ha, hb, hr⟩
  · rw [checkedRule_of_illegal (f := a.toNat) (by simp [hfields, show 7 < a.toNat from ha]), hr, raise_eq_faultedWith]
  · rw [checkedRule_of_illegal (f := b.toNat)
      (by simp [hfields, show 7 < b.toNat from hb, Nat.le_of_lt_succ ha]), hr, raise_eq_faultedWith]
  · obtain ⟨t, ht, hrule⟩ := hrule ha hb
    rw [checkedRule_of_legal (by simp [hfields, ha, hb]), hrule]
    rcases hr with ⟨f, hf, -⟩ | ⟨u, hu, hr⟩
    · simp [ht] at hf
    · rw [hr, Except.ok.inj (hu.symm.trans ht)]

variable (a b s) (n : Nat)

theorem execLdi_eq_checkedRule : execLdi a b s = .next (checkedRule .ldi a.toNat b.toNat s) :=
  eq_checkedRule_of_oneField rfl (execLdi_cases a b s) fun ha => ruleOf_ldi s ha b

theorem execPrn_eq_checkedRule : execPrn a s = .next (checkedRule .prn a.toNat n s) :=
  eq_checkedRule_of_oneField rfl (execPrn_cases a s) (ruleOf_prn s)

theorem execMul_eq_checkedRule : execMul a b s = .next (checkedRule .mul a.toNat b.toNat s) :=
  aluInstr_eq_checkedRule rfl fun ha hb => ⟨_, rfl, ruleOf_mul s ha hb⟩

theorem execHlt_eq_checkedRule (m : Nat) : execHlt s = .next (checkedRule .hlt m n s) := rfl

theorem execCmp_eq_checkedRule : execCmp a b s = .next (checkedRule .cmp a.toNat b.toNat s) :=
  aluInstr_eq_checkedRule rfl fun ha hb => ⟨_, rfl, ruleOf_cmp s ha hb⟩

theorem execJmp_eq_checkedRule : execJmp a s = .next (checkedRule .jmp a.toNat n s) :=
  eq_checkedRule_of_oneField rfl (jumpIf_cases true a s) (ruleOf_jmp s)

theorem execJeq_eq_checkedRule : execJeq a s = .next (checkedRule .jeq a.toNat n s) :=
  eq_checkedRule_of_oneField rfl (jumpIf_cases s.flags.E a s) (ruleOf_jeq s)

theorem execJne_eq_checkedRule : execJne a s = .next (checkedRule .jne a.toNat n s) :=
  eq_checkedRule_of_oneField rfl (jumpIf_cases (!s.flags.E) a s) (ruleOf_jne s)

/-- The meaning of an instruction is the checked rule of its opcode on its operand bytes; a byte past its operands does
not matter. -/
theorem execAt_eq_checkedRule {i : Instr} (h : i.operands = [a, b].take (opcodeArity i.opcode)) :
    execAt i s = .next (checkedRule i.opcode a.toNat b.toNat s) := by
  cases i with
  | ldi => cases h; exact execLdi_eq_checkedRule s a b
  | prn => cases h; exact execPrn_eq_checkedRule s a _
  | mul => cases h; exact execMul_eq_checkedRule s a b
  | hlt => exact execHlt_eq_checkedRule s _ _
  | cmp => cases h; exact execCmp_eq_checkedRule s a b
  | jmp => cases h; exact execJmp_eq_checkedRule s a _
  | jeq => cases h; exact execJeq_eq_checkedRule s a _
  | jne => cases h; exact execJne_eq_checkedRule s a _

end Execution

/-- A Running core's step at any width is R85's pseudocode: both split on the pc, the opcode byte and whether the
operands fit. -/
theorem stepAt_eq_stepAsR85 {w : Nat} {s : State w} (h : s.run = .running) : stepAt s = .next (stepAsR85 s) := by
  rcases Nat.lt_or_ge 255 s.pc with hpc | hpc
  · rw [stepAsR85_of_pc_gt hpc]
    exact cycle_of_fetch_error h (fetch_of_pc_gt hpc)
  · rcases ho : decodeOpcode (s.mem.get s.pc) with _ | o
    · rw [stepAsR85_of_unknown hpc ho]
      exact cycle_of_fetch_error h (fetch_of_unknown hpc ho)
    · rcases Nat.lt_or_ge 255 (s.pc + opcodeArity o) with hfit | hfit
      · rw [stepAsR85_of_missing hpc ho hfit]
        exact cycle_of_fetch_error h (fetch_of_missing hpc ho hfit)
      · obtain ⟨i, hf, rfl, hops⟩ := fetch_of_fits ho hfit
        rw [stepAsR85_of_fits ho hfit, ← execAt_eq_checkedRule _ _ _ hops]
        exact cycle_of_fetch_ok h hf

/-- Settles O57: the step at any width is R85's pseudocode, only a Running core has one, and at the default width it is
`step`. -/
theorem stepAtEveryWidthIsThePseudocode : Obligations.StepAtEveryWidthIsThePseudocode :=
  ⟨fun _ _ h => stepAt_eq_stepAsR85 h, fun _ _ h _ ht => h (running_of_cycle ht), rfl, stepAt_eq_step⟩

end Sys2Proof.Machine

/-! The state of the core (spec/10_state.md): what a meaning and a step can do, said once. A meaning raises its first
illegal register field or completes; a step is the meaning of the instruction that stands at the pc, or a fetch fault. The
frames, the flags, the output, the fault record and the invariant follow by cases. -/

namespace Sys2Proof.Machine

open Sys2Proof.Statements

section Completion

/-- The register a legal field names. -/
def regOf (f : Byte) : Reg := Fin.ofNat 8 f.toNat

theorem regOf_eq {f : Byte} (h : f.toNat < 8) : regOf f = ⟨f.toNat, h⟩ := Fin.ext (Nat.mod_eq_of_lt h)

theorem toNat_eq_regOf {f : Byte} (h : f.toNat < 8) : f.toNat = (regOf f).val := by rw [regOf_eq h]

/-- The first register field of an instruction that names no register (R84). -/
def firstIllegalField (i : Instr) : Option Byte := i.registerFields.find? fun g => decide (7 < g.toNat)

/-- What an instruction does when all its register fields are legal. `exec_cases` ties it to `exec`. -/
def State.complete (s : State) : Instr → State
  | .ldi a b => (s.writeReg (regOf a) (immField b)).advance 3
  | .prn a => (s.emit (s.readReg (regOf a))).advance 2
  | .mul a b => (s.writeReg (regOf a) (mulWrap (s.readReg (regOf a)) (s.readReg (regOf b)))).advance 3
  | .hlt => (s.advance 1).halt
  | .cmp a b => (s.setFlags (compareFlags (s.readReg (regOf a)) (s.readReg (regOf b)))).advance 3
  | .jmp a => s.jumpTo (s.readReg (regOf a)).toNat
  | .jeq a => if s.flags.E then s.jumpTo (s.readReg (regOf a)).toNat else s.advance 2
  | .jne a => if !s.flags.E then s.jumpTo (s.readReg (regOf a)).toNat else s.advance 2

/-- An instruction is well-formed exactly when the search for an illegal field finds none. -/
theorem wellFormed_iff_firstIllegalField (i : Instr) : i.wellFormed = true ↔ firstIllegalField i = none := by
  simp [Instr.wellFormed, firstIllegalField, legalField_iff, Nat.lt_succ_iff]

theorem not_wellFormed_of_firstIllegalField {i : Instr} {f : Byte} (h : firstIllegalField i = some f) :
    ¬ i.wellFormed = true := by
  simp [wellFormed_iff_firstIllegalField, h]

theorem illegal_of_firstIllegalField {i : Instr} {f : Byte} (h : firstIllegalField i = some f) : 8 ≤ f.toNat := by
  simpa [Nat.succ_le_iff] using List.find?_some h

theorem wellFormed_iff_of_oneField {i : Instr} {a : Byte} (h : i.registerFields = [a]) :
    i.wellFormed = true ↔ a.toNat < 8 := by
  simp [Instr.wellFormed, h, legalField_iff]

theorem wellFormed_iff_of_twoFields {i : Instr} {a b : Byte} (h : i.registerFields = [a, b]) :
    i.wellFormed = true ↔ a.toNat < 8 ∧ b.toNat < 8 := by
  simp [Instr.wellFormed, h, legalField_iff]

/-- An operation on the one register field of an instruction raises the first illegal field or completes. -/
theorem oneField_cases {i : Instr} {a : Byte} {s : State} {r : Result} {t : Reg → State}
    (hfields : i.registerFields = [a])
    (hr : (8 ≤ a.toNat ∧ r = .next (s.raise ⟨.invalidRegister, a.toNat⟩)) ∨ ∃ ha, r = .next (t ⟨a.toNat, ha⟩)) :
    (∃ f, firstIllegalField i = some f ∧ r = .next (s.raise ⟨.invalidRegister, f.toNat⟩)) ∨
      (i.wellFormed = true ∧ r = .next (t (regOf a))) := by
  rcases hr with ⟨ha, hr⟩ | ⟨ha, hr⟩
  · exact .inl ⟨a, by simp [firstIllegalField, hfields, show 7 < a.toNat from ha], hr⟩
  · exact .inr ⟨(wellFormed_iff_of_oneField hfields).2 ha, by rw [hr, regOf_eq ha]⟩

/-- An ALU instruction whose operation succeeds raises its first illegal field, `a` before `b`, or completes. -/
theorem aluInstr_fields_cases {i : Instr} {op : AluOp} {a b : Byte} {s : State} {t : Reg → Reg → State}
    (hfields : i.registerFields = [a, b]) (hop : ∀ ra rb, aluApply op ra rb s = .ok (t ra rb)) :
    (∃ f, firstIllegalField i = some f ∧ aluInstr op a b s = .next (s.raise ⟨.invalidRegister, f.toNat⟩)) ∨
      (i.wellFormed = true ∧ aluInstr op a b s = .next ((t (regOf a) (regOf b)).advance 3)) := by
  rcases aluInstr_cases op a b s with ⟨ha, hr⟩ | ⟨ha, hb, hr⟩ | ⟨ha, hb, ⟨f, hf, -⟩ | ⟨u, hu, hr⟩⟩
  · exact .inl ⟨a, by simp [firstIllegalField, hfields, show 7 < a.toNat from ha], hr⟩
  · exact .inl ⟨b, by simp [firstIllegalField, hfields, show 7 < b.toNat from hb, Nat.le_of_lt_succ ha], hr⟩
  · simp [hop] at hf
  · cases (hop _ _).symm.trans hu
    exact .inr ⟨(wellFormed_iff_of_twoFields hfields).2 ⟨ha, hb⟩, by rw [hr, regOf_eq ha, regOf_eq hb]⟩

/-- Everything the meaning of an instruction can do. -/
theorem exec_cases (i : Instr) (s : State) :
    (∃ f, firstIllegalField i = some f ∧ exec i s = .next (s.raise ⟨.invalidRegister, f.toNat⟩)) ∨
      (i.wellFormed = true ∧ exec i s = .next (s.complete i)) := by
  cases i with
  | ldi a b => exact oneField_cases (t := fun r => (s.writeReg r (immField b)).advance 3) rfl (execLdi_cases a b s)
  | prn a => exact oneField_cases (t := fun r => (s.emit (s.readReg r)).advance 2) rfl (execPrn_cases a s)
  | mul a b =>
    exact aluInstr_fields_cases (t := fun ra rb => s.writeReg ra (mulWrap (s.readReg ra) (s.readReg rb))) rfl
      fun _ _ => rfl
  | hlt => exact .inr ⟨rfl, rfl⟩
  | cmp a b =>
    exact aluInstr_fields_cases (t := fun ra rb => s.setFlags (compareFlags (s.readReg ra) (s.readReg rb))) rfl
      fun _ _ => rfl
  | jmp a => exact oneField_cases (t := fun r => s.jumpTo (s.readReg r).toNat) rfl (jumpIf_cases true a s)
  | jeq a =>
    exact oneField_cases (t := fun r => if s.flags.E then s.jumpTo (s.readReg r).toNat else s.advance 2) rfl
      (jumpIf_cases s.flags.E a s)
  | jne a =>
    exact oneField_cases (t := fun r => if !s.flags.E then s.jumpTo (s.readReg r).toNat else s.advance 2) rfl
      (jumpIf_cases (!s.flags.E) a s)

theorem exec_of_wellFormed {i : Instr} (h : i.wellFormed = true) (s : State) : exec i s = .next (s.complete i) := by
  rcases exec_cases i s with ⟨f, hf, -⟩ | ⟨-, hs⟩
  · exact absurd h (not_wellFormed_of_firstIllegalField hf)
  · exact hs

theorem exec_of_firstIllegalField {i : Instr} {f : Byte} (h : firstIllegalField i = some f) (s : State) :
    exec i s = .next (s.raise ⟨.invalidRegister, f.toNat⟩) := by
  rcases exec_cases i s with ⟨g, hg, hs⟩ | ⟨hwf, -⟩
  · rw [hs, Option.some.inj (hg.symm.trans h)]
  · exact absurd hwf (not_wellFormed_of_firstIllegalField h)

/-- A next state of a meaning is a fault entry or the completion, the inversion that the frames are read off. -/
theorem exec_next_cases {i : Instr} {s t : State} (h : exec i s = .next t) :
    (∃ f, firstIllegalField i = some f ∧ t = s.raise ⟨.invalidRegister, f.toNat⟩) ∨
      (i.wellFormed = true ∧ t = s.complete i) := by
  rcases exec_cases i s with ⟨f, hf, hs⟩ | ⟨hwf, hs⟩
  · exact .inl ⟨f, hf, Host.Outcome.next.inj (h.symm.trans hs)⟩
  · exact .inr ⟨hwf, Host.Outcome.next.inj (h.symm.trans hs)⟩

end Completion

section CompletedFields

variable (s : State) (i : Instr)

@[simp] theorem State.complete_mem : (s.complete i).mem = s.mem := by
  cases i with
  | jeq | jne => simp only [State.complete]; split <;> rfl
  | _ => rfl

@[simp] theorem State.complete_run : (s.complete i).run = if i = .hlt then .halted else s.run := by
  cases i with
  | jeq | jne => simp only [State.complete]; split <;> rfl
  | _ => rfl

theorem State.complete_pc : (s.complete i).pc = pcAfter i s fun r => (s.readReg r).toNat := by
  cases i with
  | jeq => simp only [State.complete, pcAfter]; split <;> rfl
  | jne => cases hE : s.flags.E <;> simp only [State.complete, pcAfter, hE] <;> rfl
  | _ => rfl

variable {i}

theorem State.complete_flags (h : ∀ a b, i ≠ .cmp a b) : (s.complete i).flags = s.flags := by
  cases i with
  | cmp a b => exact absurd rfl (h a b)
  | jeq | jne => simp only [State.complete]; split <;> rfl
  | _ => rfl

theorem State.complete_out_prn (a : Byte) : (s.complete (.prn a)).out = s.out ++ [s.readReg (regOf a)] := rfl

theorem State.complete_out (h : ∀ a, i ≠ .prn a) : (s.complete i).out = s.out := by
  cases i with
  | prn a => exact absurd rfl (h a)
  | jeq | jne => simp only [State.complete]; split <;> rfl
  | _ => rfl

/-- A write to the register a field names leaves every register with another number alone. -/
theorem State.writeReg_regOf_readReg {a : Byte} {r : Reg} (ha : a.toNat < 8) (h : a.toNat ≠ r.val) (v : Word) :
    (s.writeReg (regOf a) v).readReg r = s.readReg r := by
  rw [regOf_eq ha]
  exact State.writeReg_readReg_ne s v fun e => h (congrArg Fin.val e).symm

theorem State.complete_readReg (hwf : i.wellFormed = true) {r : Reg} (h : ¬ writesReg i r) :
    (s.complete i).readReg r = s.readReg r := by
  cases i with
  | ldi a b => exact s.writeReg_regOf_readReg ((wellFormed_iff_of_oneField rfl).1 hwf) h _
  | mul a b => exact s.writeReg_regOf_readReg ((wellFormed_iff_of_twoFields rfl).1 hwf).1 h _
  | jeq | jne => simp only [State.complete]; split <;> rfl
  | _ => rfl

end CompletedFields

section Frame

variable {i : Instr} {s t : State}

theorem exec_mem (h : exec i s = .next t) : t.mem = s.mem := by
  rcases exec_next_cases h with ⟨f, -, rfl⟩ | ⟨-, rfl⟩
  · rfl
  · exact s.complete_mem i

theorem exec_readReg (h : exec i s = .next t) {r : Reg} (hr : ¬ writesReg i r) : t.readReg r = s.readReg r := by
  rcases exec_next_cases h with ⟨f, -, rfl⟩ | ⟨hwf, rfl⟩
  · rfl
  · exact s.complete_readReg hwf hr

/-- A CMP that completes. -/
def completesCompare (i : Instr) : Prop := ∃ a b, i = .cmp a b ∧ i.wellFormed = true

/-- The flags are as before, or a CMP completed and set exactly one (R31). -/
theorem exec_flags (h : exec i s = .next t) :
    (¬ completesCompare i ∧ t.flags = s.flags) ∨ (completesCompare i ∧ t.flags.exactlyOne) := by
  rcases exec_next_cases h with ⟨f, hf, rfl⟩ | ⟨hwf, rfl⟩
  · exact .inl ⟨fun ⟨_, _, _, hwf⟩ => not_wellFormed_of_firstIllegalField hf hwf, rfl⟩
  · by_cases hc : ∃ a b, i = .cmp a b
    · obtain ⟨a, b, rfl⟩ := hc
      exact .inr ⟨⟨a, b, rfl, hwf⟩, compareFlags_exactlyOne _ _⟩
    · exact .inl ⟨fun ⟨a, b, hi, _⟩ => hc ⟨a, b, hi⟩, s.complete_flags fun a b hi => hc ⟨a, b, hi⟩⟩

theorem exec_flags_of_ne_cmp (h : exec i s = .next t) (hi : ∀ a b, i ≠ .cmp a b) : t.flags = s.flags := by
  rcases exec_flags h with ⟨-, hf⟩ | ⟨⟨a, b, rfl, -⟩, -⟩
  · exact hf
  · exact absurd rfl (hi a b)

theorem exec_out_prn {a : Byte} (ha : a.toNat < 8) (h : exec (.prn a) s = .next t) :
    t.out = s.out ++ [s.readReg ⟨a.toNat, ha⟩] := by
  rw [exec_of_wellFormed ((wellFormed_iff_of_oneField rfl).2 ha)] at h
  cases h
  rw [s.complete_out_prn, regOf_eq ha]

/-- Only a PRN with a legal field appends to the output (R38). -/
theorem exec_out (h : exec i s = .next t) (hi : ∀ a, i = .prn a → ¬ a.toNat < 8) : t.out = s.out := by
  rcases exec_next_cases h with ⟨f, -, rfl⟩ | ⟨hwf, rfl⟩
  · rfl
  · refine s.complete_out fun a ha => hi a ha ?_
    subst ha
    exact (wellFormed_iff_of_oneField rfl).1 hwf

/-- The run state is as before, unless a HLT completes or an illegal field is raised. -/
theorem exec_run (h : exec i s = .next t) :
    t.run = (if i = .hlt then .halted else s.run) ∨ ∃ f, 8 ≤ f ∧ t = s.faultedWith .invalidRegister f := by
  rcases exec_next_cases h with ⟨f, hf, rfl⟩ | ⟨-, rfl⟩
  · exact .inr ⟨f.toNat, illegal_of_firstIllegalField hf, raise_eq_faultedWith s _ _⟩
  · exact .inl (s.complete_run i)

theorem exec_memRead (h : exec i s = .next t) (addr : Nat) : memRead t.mem addr = memRead s.mem addr := by
  rw [exec_mem h]

end Frame

/-- Settles O23: neither LDI nor MUL is among the writers of flags or output. -/
theorem frameOfTheRegisterWriters : Obligations.FrameOfTheRegisterWriters := by
  rintro a b i s t (rfl | rfl) h
  all_goals
    exact ⟨fun r hr => exec_readReg h fun hw => hr (Eq.symm hw), exec_flags_of_ne_cmp h nofun, exec_out h nofun,
      exec_memRead h, exec_run h⟩

/-- Settles O24: neither PRN nor CMP writes a register. -/
theorem frameOfPrintAndCompare : Obligations.FrameOfPrintAndCompare := by
  rintro a b i s t (rfl | rfl) h
  · exact ⟨fun r => exec_readReg h id, fun _ => exec_flags_of_ne_cmp h nofun, nofun, exec_memRead h, exec_run h⟩
  · exact ⟨fun r => exec_readReg h id, nofun, fun _ => exec_out h nofun, exec_memRead h, exec_run h⟩

theorem exec_hlt_run {s t : State} (h : exec .hlt s = .next t) : t.run = .halted := by
  cases h
  rfl

/-- Settles O25: none of the four writes a register, a flag or the output, and HLT is the only one that halts. -/
theorem frameOfTheControlInstructions : Obligations.FrameOfTheControlInstructions := by
  rintro a i s t (rfl | rfl | rfl | rfl) h
  · exact ⟨fun r => exec_readReg h id, exec_flags_of_ne_cmp h nofun, exec_out h nofun, exec_memRead h,
      fun _ => exec_hlt_run h, fun hne => absurd rfl hne⟩
  all_goals
    exact ⟨fun r => exec_readReg h id, exec_flags_of_ne_cmp h nofun, exec_out h nofun, exec_memRead h, nofun,
      fun _ => exec_run h⟩

section RegistersRead

variable {i : Instr} {s : State} {y : Vector Word 8}

/-- A register file read where a legal field has just written. -/
theorem getElem_set_regOf {a : Byte} {r : Reg} (ha : a.toNat < 8) (h : a.toNat = r.val) (x : Vector Word 8) (v : Word) :
    (x.set (regOf a).val v)[r.val] = v := by
  simp [regOf_eq ha, h]

/-- A completed instruction in a state with other registers, alike where the instruction reads, differs in registers
alone, and not in the one it writes (R23). -/
theorem complete_withRegs (hwf : i.wellFormed = true)
    (hy : ∀ r : Reg, readsReg i s.flags.E r → State.readReg { s with x := y } r = s.readReg r) :
    ∃ z : Vector Word 8, State.complete { s with x := y } i = { s.complete i with x := z } ∧
      ∀ r : Reg, writesReg i r → z[r.val] = (s.complete i).readReg r := by
  cases i with
  | ldi a b =>
    have ha := (wellFormed_iff_of_oneField rfl).1 hwf
    exact ⟨_, rfl, fun r hr => (getElem_set_regOf ha hr ..).trans (getElem_set_regOf ha hr ..).symm⟩
  | prn a =>
    have ha := hy _ (toNat_eq_regOf ((wellFormed_iff_of_oneField rfl).1 hwf))
    exact ⟨y, by simp only [State.complete, ha]; rfl, nofun⟩
  | mul a b =>
    obtain ⟨ha, hb⟩ := (wellFormed_iff_of_twoFields rfl).1 hwf
    refine ⟨_, rfl, fun r hr => ?_⟩
    rw [hy _ (.inl (toNat_eq_regOf ha)), hy _ (.inr (toNat_eq_regOf hb))]
    exact (getElem_set_regOf ha hr ..).trans (getElem_set_regOf ha hr ..).symm
  | hlt => exact ⟨y, rfl, nofun⟩
  | cmp a b =>
    obtain ⟨ha, hb⟩ := (wellFormed_iff_of_twoFields rfl).1 hwf
    exact ⟨y, by simp only [State.complete, hy _ (.inl (toNat_eq_regOf ha)), hy _ (.inr (toNat_eq_regOf hb))]; rfl, nofun⟩
  | jmp a =>
    have ha := hy _ (toNat_eq_regOf ((wellFormed_iff_of_oneField rfl).1 hwf))
    exact ⟨y, by simp only [State.complete, ha]; rfl, nofun⟩
  | jeq a =>
    refine ⟨y, ?_, nofun⟩
    cases hE : s.flags.E with
    | false =>
      simp only [State.complete, hE]
      rfl
    | true =>
      have ha := hy _ ⟨hE, toNat_eq_regOf ((wellFormed_iff_of_oneField rfl).1 hwf)⟩
      simp only [State.complete, hE, ha]
      rfl
  | jne a =>
    refine ⟨y, ?_, nofun⟩
    cases hE : s.flags.E with
    | false =>
      have ha := hy _ ⟨hE, toNat_eq_regOf ((wellFormed_iff_of_oneField rfl).1 hwf)⟩
      simp only [State.complete, hE, ha]
      rfl
    | true =>
      simp only [State.complete, hE]
      rfl

end RegistersRead

/-- Settles O26: both runs raise the same field, or complete alike but for the registers. -/
theorem registersReadAndWritten : Obligations.RegistersReadAndWritten := by
  intro i s t y hy h
  rcases exec_next_cases h with ⟨f, hf, rfl⟩ | ⟨hwf, rfl⟩
  · exact ⟨_, exec_of_firstIllegalField hf _, rfl, rfl, rfl, rfl, rfl,
      fun r hwf => absurd hwf (not_wellFormed_of_firstIllegalField hf), fun r _ => ⟨rfl, rfl⟩⟩
  · have h' := exec_of_wellFormed hwf { s with x := y }
    obtain ⟨z, hz, hzw⟩ := complete_withRegs hwf hy
    refine ⟨_, h', ?_⟩
    rw [hz] at h' ⊢
    exact ⟨rfl, rfl, rfl, rfl, rfl, fun r _ hr => hzw r hr, fun r hr => ⟨exec_readReg h hr, exec_readReg h' hr⟩⟩

section StepCases

variable {s t : State}

/-- The bytes of an instruction stand at the pc, all of them below 256. -/
def State.HoldsAtPc (s : State) (i : Instr) : Prop :=
  s.pc + (encode i).length ≤ 256 ∧ ∀ (k : Nat) (h : k < (encode i).length), s.mem.get (s.pc + k) = (encode i)[k]

/-- What a step raises, and when: the fetch faults of R80, R83 and R82, and the illegal field of R84. -/
inductive StepRaises (s : State) : Raised → Prop where
  | opcodeFetch (hpc : 255 < s.pc) : StepRaises s ⟨.addressOutOfRange, s.pc⟩
  | unknownOpcode (hpc : s.pc ≤ 255) (ho : decodeOpcode (s.mem.get s.pc) = none) :
      StepRaises s ⟨.unknownInstruction, (s.mem.get s.pc).toNat⟩
  | operandFetch (o : Opcode) (hpc : s.pc ≤ 255) (ho : decodeOpcode (s.mem.get s.pc) = some o)
      (hfit : 255 < s.pc + opcodeArity o) : StepRaises s ⟨.addressOutOfRange, 256⟩
  | registerField (i : Instr) (f : Byte) (hi : s.HoldsAtPc i) (hf : firstIllegalField i = some f) :
      StepRaises s ⟨.invalidRegister, f.toNat⟩

/-- An instruction whose opcode byte and operands are the bytes from the pc up stands there. -/
theorem holdsAtPc_of_operands {i : Instr} (ho : decodeOpcode (s.mem.get s.pc) = some i.opcode)
    (hfit : s.pc + opcodeArity i.opcode ≤ 255)
    (hops : i.operands = [s.mem.get (s.pc + 1), s.mem.get (s.pc + 2)].take (opcodeArity i.opcode)) :
    s.HoldsAtPc i := by
  have hlen : (encode i).length = opcodeArity i.opcode + 1 := congrArg (· + 1) (operands_length i)
  have henc : encode i =
      [s.mem.get s.pc, s.mem.get (s.pc + 1), s.mem.get (s.pc + 2)].take (opcodeArity i.opcode + 1) := by
    simp [encode, hops, opcodeByte_of_decodeOpcode ho]
  refine ⟨by omega, fun k hk => ?_⟩
  have hk3 : k < 3 := by have := opcodeArity_le_two i.opcode; omega
  simp only [henc, List.getElem_take]
  match k, hk3 with
  | 0, _ | 1, _ | 2, _ => rfl

/-- Everything the fetch can give: an instruction that stands at the pc, or a fault that the step raises. -/
theorem fetch_cases (s : State) :
    (∃ i, fetch s = .ok i ∧ s.HoldsAtPc i) ∨ ∃ f, fetch s = .error f ∧ StepRaises s f := by
  rcases Nat.lt_or_ge 255 s.pc with hpc | hpc
  · exact .inr ⟨_, fetch_of_pc_gt hpc, .opcodeFetch hpc⟩
  · rcases ho : decodeOpcode (s.mem.get s.pc) with _ | o
    · exact .inr ⟨_, fetch_of_unknown hpc ho, .unknownOpcode hpc ho⟩
    · rcases Nat.lt_or_ge 255 (s.pc + opcodeArity o) with hfit | hfit
      · exact .inr ⟨_, fetch_of_missing hpc ho hfit, .operandFetch o hpc ho hfit⟩
      · obtain ⟨i, hf, rfl, hops⟩ := fetch_of_fits ho hfit
        exact .inl ⟨i, hf, holdsAtPc_of_operands ho hfit hops⟩

/-- A step is the meaning of the instruction that stands at the pc, or the entry of a fault of the fetch. -/
theorem step_next_cases (h : step s = .next t) :
    (∃ i, s.HoldsAtPc i ∧ exec i s = .next t) ∨ ∃ f, StepRaises s f ∧ t = s.raise f := by
  rcases fetch_cases s with ⟨i, hf, hi⟩ | ⟨f, hf, hr⟩
  · exact .inl ⟨i, hi, (cycle_of_fetch_ok (running_of_step h) hf).symm.trans h⟩
  · exact .inr ⟨f, hr, Host.Outcome.next.inj (h.symm.trans (cycle_of_fetch_error (running_of_step h) hf))⟩

/-- A step completes the well-formed instruction that stands at the pc, or enters a fault. -/
theorem step_complete_or_raise (h : step s = .next t) :
    (∃ i, s.HoldsAtPc i ∧ i.wellFormed = true ∧ t = s.complete i) ∨ ∃ f, StepRaises s f ∧ t = s.raise f := by
  rcases step_next_cases h with ⟨i, hi, he⟩ | hr
  · rcases exec_next_cases he with ⟨f, hf, ht⟩ | ⟨hwf, ht⟩
    · exact .inr ⟨_, .registerField i f hi hf, ht⟩
    · exact .inl ⟨i, hi, hwf, ht⟩
  · exact .inr hr

/-- A completed instruction of a Running core has not faulted. -/
theorem complete_notFaulted (h : s.run = .running) (i : Instr) : (s.complete i).notFaulted := by
  intro r
  rw [s.complete_run, h]
  split <;> nofun

/-- A step into Faulted is the entry of a fault that the step raises. -/
theorem raise_of_step_faulted {r : FaultRecord} (h : step s = .next t) (hr : t.run = .faulted r) :
    ∃ f, StepRaises s f ∧ t = s.raise f ∧ r = ⟨f.cause, s.pc, f.info⟩ := by
  rcases step_complete_or_raise h with ⟨i, -, -, rfl⟩ | ⟨f, hf, rfl⟩
  · exact absurd hr (complete_notFaulted (running_of_step h) i r)
  · exact ⟨f, hf, rfl, (RunState.faulted.inj hr).symm⟩

end StepCases

/-- Settles O27: the pc of a completed instruction, and that a fault entry leaves the pc. -/
theorem nextPcOfEveryInstruction : Obligations.NextPcOfEveryInstruction := by
  refine ⟨fun i s hwf => ⟨_, exec_of_wellFormed hwf s, s.complete_pc i, ?_⟩, fun s t r h hr => ?_⟩
  · rintro rfl
    rfl
  · obtain ⟨f, -, rfl, -⟩ := raise_of_step_faulted h hr
    rfl

/-- Settles O43: one case per fault a step can raise. -/
theorem faultRecordNamesItsReason : Obligations.FaultRecordNamesItsReason := by
  intro s t r h hr
  obtain ⟨f, hf, -, rfl⟩ := raise_of_step_faulted h hr
  cases hf with
  | opcodeFetch hpc => exact ⟨hpc, .inl rfl⟩
  | unknownOpcode hpc ho => exact ⟨hpc, rfl, ho⟩
  | operandFetch o hpc ho hfit => exact ⟨Nat.lt_succ_self 255, .inr ⟨o, ho, Nat.lt_succ_of_le hpc, hfit⟩⟩
  | registerField i f hi hf => exact ⟨i, f, hi.1, hi.2, hf, rfl⟩

section FlagsAndOutput

variable {s t : State}

/-- A step leaves the flags or sets exactly one (R31). -/
theorem step_flags (h : step s = .next t) : t.flags = s.flags ∨ t.flags.exactlyOne := by
  rcases step_next_cases h with ⟨i, -, he⟩ | ⟨f, -, rfl⟩
  · exact (exec_flags he).imp And.right And.right
  · exact .inl rfl

theorem Flags.not_exactlyOne_of_unset {f : Flags} (h : f.unset) : ¬ f.exactlyOne := by
  cases h
  simp [Flags.exactlyOne]

/-- Every step keeps "all false or exactly one true" (R33). -/
theorem step_keeps_flags (h : step s = .next t) (hs : s.flags.unset ∨ s.flags.exactlyOne) :
    t.flags.unset ∨ t.flags.exactlyOne := by
  rcases step_flags h with hf | hf
  · rwa [hf]
  · exact .inr hf

/-- A step leaves the output or appends one value (R38). -/
theorem step_out (h : step s = .next t) : t.out = s.out ∨ ∃ v, t.out = s.out ++ [v] := by
  rcases step_complete_or_raise h with ⟨i, -, -, rfl⟩ | ⟨f, -, rfl⟩
  · by_cases hi : ∃ a, i = .prn a
    · obtain ⟨a, rfl⟩ := hi
      exact .inr ⟨_, s.complete_out_prn a⟩
    · exact .inl (s.complete_out fun a ha => hi ⟨a, ha⟩)
  · exact .inl rfl

end FlagsAndOutput

/-- Settles O28: the flags change only where a CMP completes. -/
theorem onlyCompareWritesFlags : Obligations.OnlyCompareWritesFlags := by
  refine ⟨fun i s t h => ?_, fun s t r h hr => ?_⟩
  · rcases exec_flags h with ⟨hc, hf⟩ | ⟨⟨a, b, hi, -⟩, hf⟩
    · exact ⟨.inl hf, fun a b hi hwf => absurd ⟨a, b, hi, hwf⟩ hc⟩
    · exact ⟨.inr ⟨a, b, hi, hf⟩, fun _ _ _ _ => hf⟩
  · obtain ⟨f, -, rfl, -⟩ := raise_of_step_faulted h hr
    rfl

/-- Settles O30: a step leaves the flags or sets exactly one, and exactly one true is not all false. -/
theorem flagInvariant : Obligations.FlagInvariant := by
  refine ⟨fun _ => rfl, fun s t h => step_keeps_flags h, fun s t h hs => ?_, fun i s t h hs => ?_⟩
  · rcases step_flags h with hf | hf
    · rwa [hf]
    · exact hf
  · rcases exec_flags h with ⟨hc, hf⟩ | ⟨hc, hf⟩
    · exact ⟨fun _ => hc, fun _ => hf ▸ hs⟩
    · exact ⟨fun hu => absurd hf (Flags.not_exactlyOne_of_unset hu), fun hn => absurd hc hn⟩

/-- Settles O31: only a PRN with a legal field appends. -/
theorem onlyPrintAppendsOutput : Obligations.OnlyPrintAppendsOutput :=
  ⟨fun _ => rfl, fun _ _ _ ha h => exec_out_prn ha h, fun _ _ _ h hi => exec_out h hi, fun _ _ h => step_out h⟩

section FlagsNotObservable

variable {s t : State} {f : Flags}

/-- Completion reads no flag but E: other L and G before it leave other L and G after it, at most (R32). -/
theorem complete_setFlags (i : Instr) (hE : f.E = s.flags.E) :
    ∃ g : Flags, g.E = (s.complete i).flags.E ∧ (s.setFlags f).complete i = (s.complete i).setFlags g := by
  cases i with
  | cmp a b => exact ⟨_, rfl, rfl⟩
  | jeq a =>
    refine ⟨f, by rw [s.complete_flags (i := .jeq a) nofun, hE], ?_⟩
    simp only [State.complete, State.setFlags_flags, hE]
    split <;> rfl
  | jne a =>
    refine ⟨f, by rw [s.complete_flags (i := .jne a) nofun, hE], ?_⟩
    simp only [State.complete, State.setFlags_flags, hE]
    split <;> rfl
  | _ => exact ⟨f, hE, rfl⟩

theorem exec_setFlags {i : Instr} (hE : f.E = s.flags.E) (h : exec i s = .next t) :
    ∃ g : Flags, g.E = t.flags.E ∧ exec i (s.setFlags f) = .next (t.setFlags g) := by
  rcases exec_next_cases h with ⟨n, hn, rfl⟩ | ⟨hwf, rfl⟩
  · exact ⟨f, hE, exec_of_firstIllegalField hn _⟩
  · obtain ⟨g, hg, hs⟩ := complete_setFlags i hE
    exact ⟨g, hg, hs ▸ exec_of_wellFormed hwf _⟩

/-- The fetch reads memory and the pc alone, so a step carries other L and G along. -/
theorem step_setFlags (hE : f.E = s.flags.E) (h : step s = .next t) :
    ∃ g : Flags, g.E = t.flags.E ∧ step (s.setFlags f) = .next (t.setFlags g) := by
  have hs := running_of_step h
  have hf : (s.setFlags f).run = .running := hs
  have hfetch : fetch (s.setFlags f) = fetch s := rfl
  rcases step_running hs with ⟨i, hi, he⟩ | ⟨e, hi, he⟩
  · obtain ⟨g, hg, hgt⟩ := exec_setFlags hE (he.symm.trans h)
    exact ⟨g, hg, (cycle_of_fetch_ok hf (hfetch.trans hi)).trans hgt⟩
  · cases he.symm.trans h
    exact ⟨f, hE, cycle_of_fetch_error hf (hfetch.trans hi)⟩

/-- A run of `n + 1` steps is a step and a run of `n` steps. -/
theorem core_run_succ {n : Nat} : Sys2Proof.core.run (n + 1) s = .next t ↔
    ∃ u, step s = .next u ∧ Sys2Proof.core.run n u = .next t := by
  have hcore : Sys2Proof.core.step s = step s := rfl
  simp only [Host.Core.run, hcore]
  cases step s <;> simp

theorem run_setFlags (n : Nat) (hE : f.E = s.flags.E) (h : Sys2Proof.core.run n s = .next t) :
    ∃ g : Flags, g.E = t.flags.E ∧ Sys2Proof.core.run n (s.setFlags f) = .next (t.setFlags g) := by
  induction n generalizing s f with
  | zero =>
    cases h
    exact ⟨f, hE, rfl⟩
  | succ n ih =>
    obtain ⟨u, hu, hr⟩ := core_run_succ.1 h
    obtain ⟨g, hg, hgu⟩ := step_setFlags hE hu
    obtain ⟨g', hg', hr'⟩ := ih hg hr
    exact ⟨g', hg', core_run_succ.2 ⟨_, hgu, hr'⟩⟩

end FlagsNotObservable

/-- Settles O29, by induction on the number of steps: `setFlags` with the same E commutes with a step up to L and G. -/
theorem lessAndGreaterAreNotObservable : Obligations.LessAndGreaterAreNotObservable := by
  intro n s t f hE h
  obtain ⟨g, hg, hr⟩ := run_setFlags n hE h
  exact ⟨g, hg, hr, rfl, rfl⟩

section Invariant

variable {s : State}

/-- An instruction that stands at the pc moves past its last byte, so to 256 at most, or jumps to a byte. -/
theorem complete_pc_le {i : Instr} (hi : s.HoldsAtPc i) : (s.complete i).pc ≤ 256 := by
  obtain ⟨hlen, -⟩ := hi
  have hjump : ∀ r, (s.readReg r).toNat ≤ 256 := fun r => (s.readReg r).isLt.le
  rw [s.complete_pc]
  cases i with
  | jmp a => exact hjump _
  | jeq a => simp only [pcAfter]; split; exacts [hjump _, hlen]
  | jne a => simp only [pcAfter]; split; exacts [hlen, hjump _]
  | _ => exact hlen

/-- What a step raises at a pc of at most 258 makes a legal record. -/
theorem StepRaises.record_legal {f : Raised} (h : StepRaises s f) (hpc : s.pc ≤ 258) :
    (FaultRecord.mk f.cause s.pc f.info).legal := by
  cases h with
  | opcodeFetch h => exact ⟨h, hpc⟩
  | unknownOpcode _ ho => exact ⟨(s.mem.get s.pc).isLt, by simpa using ho⟩
  | operandFetch => simp [FaultRecord.legal]
  | registerField i f _ hf => exact ⟨illegal_of_firstIllegalField hf, f.isLt⟩

end Invariant

/-- Settles O48: each field of the invariant, for a completed instruction and for a fault entry. -/
theorem everyStepKeepsTheInvariant : Obligations.EveryStepKeepsTheInvariant := by
  intro s t hs h
  have hflags := step_keeps_flags h hs.flags
  rcases step_complete_or_raise h with ⟨i, hi, -, rfl⟩ | ⟨f, hf, rfl⟩
  · exact ⟨(s.complete_mem i).symm ▸ hs.memory, (complete_pc_le hi).trans (by decide), hflags,
      fun r hr => absurd hr (complete_notFaulted (running_of_step h) i r)⟩
  · refine ⟨hs.memory, hs.pcRange, hflags, fun r hr => ?_⟩
    cases hr
    exact ⟨hf.record_legal hs.pcRange, rfl⟩

theorem resetWith_inv (regReset : Vector Word 8) : (State.resetWith regReset).Inv :=
  ⟨State.resetWith_wf regReset, Nat.zero_le _, .inl rfl, nofun⟩

/-- Settles O47: `State.reset` is a reset state for one register file, so it is an instance of the general claim. -/
theorem invariantHoldsAtReset : Obligations.InvariantHoldsAtReset := ⟨resetWith_inv _, resetWith_inv⟩

/-- Settles O45: reset leaves the empty memory, which reads 0 everywhere (R53). -/
theorem resetState : Obligations.ResetState :=
  ⟨fun _ => ⟨_, rfl, fun _ ha => memRead_of_lt (Nat.lt_succ_of_le ha), fun _ => rfl, rfl, rfl, rfl, rfl, rfl⟩, _, rfl⟩

/-- A legal record's info fits the 9-bit field of R36. -/
theorem FaultRecord.info_le_of_legal {r : FaultRecord} (h : r.legal) : r.info ≤ 258 := by
  obtain ⟨c, pc, info⟩ := r
  cases c with
  | unknownInstruction => exact h.1.le.trans (by decide)
  | addressOutOfRange => exact h.2
  | invalidRegister => exact h.2.le.trans (by decide)
  | unsupportedOperation => exact h.elim

/-- Settles O52: under the invariant the record's pc and info are at most 258, so 9 bits hold them. -/
theorem statusPortFields : Obligations.StatusPortFields := by
  intro s hs
  refine ⟨fun h => by simp [statusOf, h], fun h => by simp [statusOf, h], fun r h => ?_⟩
  obtain ⟨hlegal, hpc⟩ := hs.record r h
  have hinfo := FaultRecord.info_le_of_legal hlegal
  have hrange := hs.pcRange
  simp only [statusOf, h, BitVec.toNat_ofNat]
  refine ⟨trivial, Nat.mod_eq_of_lt (by omega), Nat.mod_eq_of_lt (by omega), ?_⟩
  cases r.cause <;> rfl

end Sys2Proof.Machine

/-! Memory and its ports (spec/20_memory.md): a canonical memory is fixed by what it reads, MemRead and MemWrite are checked
at 255, and the host writes memory by a load before the start alone. -/

namespace Sys2Proof.Machine

section Cells

variable {m : Memory}

/-- Settles O33 by the two laws of `MemRead`, with the bound written as at most 255. -/
theorem memReadChecksTheAddress : Obligations.MemReadChecksTheAddress :=
  fun _ _ => ⟨memRead_of_le, fun h => memRead_of_lt (Nat.lt_succ_of_le h)⟩

/-- `MemRead` after a write to a cell of the core. -/
theorem memRead_set (hm : m.wf) {a : Nat} (ha : a < 256) (v : Byte) (b : Nat) :
    memRead (m.set a v) b = if b = a then .ok v else memRead m b := by
  rcases Nat.lt_or_ge b 256 with hb | hb
  · simp only [memRead_of_lt hb, Memory.get_set hm, eq_comm (a := a), apply_ite Except.ok]
  · rw [memRead_of_le hb, memRead_of_le hb, if_neg (by omega)]

/-- Settles O34: the write is `Memory.set`, which keeps the canonical form. -/
theorem memWriteReplacesOneCell : Obligations.MemWriteReplacesOneCell := by
  intro m a v hm
  refine ⟨memWrite_of_le, fun h => ?_⟩
  have ha : a < 256 := Nat.lt_succ_of_le h
  exact ⟨m.set a v, memWrite_of_lt ha, Memory.wf_set hm ha v, memRead_set hm ha v⟩

/-- A memory that reads something other than the unlisted value at an address lists that cell. -/
theorem Memory.mem_of_get_ne {a : Nat} (h : m.get a ≠ unlistedByte) : (a, m.get a) ∈ m := by
  induction m with
  | nil => exact absurd rfl h
  | cons c m ih =>
    obtain ⟨k, u⟩ := c
    rw [Memory.get_cons] at h ⊢
    split
    · next hk => subst hk; exact List.mem_cons_self
    · next hk =>
      rw [if_neg hk] at h
      exact List.mem_cons_of_mem _ (ih h)

/-- A cell that a canonical memory lists is what the memory reads there. -/
theorem Memory.get_of_mem (hm : m.wf) {a : Nat} {v : Byte} (h : (a, v) ∈ m) : m.get a = v := by
  induction m with
  | nil => cases h
  | cons c m ih =>
    obtain ⟨hlt, hwf⟩ := Memory.wf_cons hm
    rcases List.mem_cons.1 h with rfl | h
    · exact (Memory.get_cons ..).trans (if_pos rfl)
    · exact (Memory.get_cons ..).trans ((if_neg (hlt _ h).ne).trans (ih hwf h))

/-- The cells of a canonical memory are exactly the core's cells that do not read as unlisted. -/
theorem Memory.mem_iff_get (hm : m.wf) (a : Nat) (v : Byte) :
    (a, v) ∈ m ↔ a < 256 ∧ v ≠ unlistedByte ∧ m.get a = v := by
  constructor
  · intro h
    obtain ⟨ha, hv⟩ := hm.2 _ h
    exact ⟨ha, hv, Memory.get_of_mem hm h⟩
  · rintro ⟨-, hv, rfl⟩
    exact Memory.mem_of_get_ne hv

/-- Settles O35: the memories list the same cells in the same rising order of addresses. -/
theorem canonicalMemoriesAreEqual : Obligations.CanonicalMemoriesAreEqual := by
  intro m n hm hn h
  have : Std.Irrefl fun c d : Host.Cell => c.1 < d.1 := ⟨fun c => Nat.lt_irrefl c.1⟩
  have : Std.Antisymm fun c d : Host.Cell => c.1 < d.1 := ⟨fun _ _ h h' => absurd h' (Nat.lt_asymm h)⟩
  refine hm.1.eq_of_mem_iff hn.1 fun ⟨a, v⟩ => ?_
  rw [Memory.mem_iff_get hm, Memory.mem_iff_get hn]
  exact and_congr_right fun ha => by rw [h a (Nat.le_of_lt_succ ha)]

end Cells

/-- A load that ends by address 255 is carried out: each byte of the image stands at its address, and every other cell
reads as before (R192). -/
theorem loadBytes_of_fits {bs : List Byte} {m : Memory} {a : Nat} (hm : m.wf) (h : a + bs.length ≤ 256) :
    ∃ m', loadBytes m a bs = .ok m' ∧
      ∀ b, m'.get b = if a ≤ b then bs.getD (b - a) (m.get b) else m.get b := by
  induction bs generalizing m a with
  | nil => exact ⟨m, rfl, fun b => by simp⟩
  | cons v bs ih =>
    rw [List.length_cons] at h
    have ha : a < 256 := by omega
    obtain ⟨m', hload, hget⟩ := ih (Memory.wf_set hm ha v) (a := a + 1) (by omega)
    refine ⟨m', by rw [loadBytes, memWrite_of_lt ha]; exact hload, fun b => ?_⟩
    rw [hget, Memory.get_set hm]
    rcases Nat.lt_trichotomy b a with hb | rfl | hb
    · simp [show ¬ a + 1 ≤ b by omega, show ¬ a ≤ b by omega, show a ≠ b by omega]
    · simp
    · rw [if_pos (show a + 1 ≤ b from hb), if_neg hb.ne, if_pos hb.le,
        show b - a = b - (a + 1) + 1 by omega, List.getD_cons_succ]

section Steps

variable {s t : State}

/-- No step writes memory (R197). -/
theorem step_mem (h : step s = .next t) : t.mem = s.mem := by
  rcases step_next_cases h with ⟨i, -, he⟩ | ⟨f, -, rfl⟩
  · exact exec_mem he
  · rfl

/-- Every meaning answers a next state. -/
theorem exec_exists_next (i : Instr) (s : State) : ∃ t, exec i s = .next t := by
  rcases exec_cases i s with ⟨_, _, h⟩ | ⟨_, h⟩ <;> exact ⟨_, h⟩

/-- A Running core steps. -/
theorem step_exists_next (h : s.run = .running) : ∃ t, step s = .next t := by
  rcases step_running h with ⟨i, -, hs⟩ | ⟨f, -, hs⟩
  · exact (exec_exists_next i s).imp fun _ he => hs.trans he
  · exact ⟨_, hs⟩

end Steps

section Moves

variable {w : Nat} {p q : Platform w}

/-- An accepted load is carried out by the load port before the start. -/
theorem Platform.load_next_cases {image : List Byte} (h : p.apply (.load image) = .next q) :
    p.started = false ∧ ∃ m, loadBytes p.core.mem 0 image = .ok m ∧ q = { p with core := { p.core with mem := m } } := by
  simp only [Platform.apply] at h
  split at h
  · cases h
  · next hp =>
    split at h
    · next m hm => exact ⟨Bool.eq_false_of_not_eq_true hp, m, hm, (Host.Outcome.next.inj h).symm⟩
    · cases h

/-- An accepted start sets the started bit, once. -/
theorem Platform.start_next_cases (h : p.apply .start = .next q) :
    p.started = false ∧ q = { p with started := true } := by
  simp only [Platform.apply] at h
  split at h
  · cases h
  · next hp => exact ⟨Bool.eq_false_of_not_eq_true hp, (Host.Outcome.next.inj h).symm⟩

/-- An accepted core step is the step of a started core. -/
theorem Platform.coreStep_next_cases (h : p.apply .coreStep = .next q) :
    p.started = true ∧ ∃ t, stepAt p.core = .next t ∧ q = { p with core := t } := by
  simp only [Platform.apply] at h
  split at h
  · next hp =>
    split at h
    · next t ht => exact ⟨hp, t, ht, (Host.Outcome.next.inj h).symm⟩
    · cases h
    · cases h
  · cases h

theorem Platform.apply_load_of_ok {s : State w} {image : List Byte} {m : Memory} (h : loadBytes s.mem 0 image = .ok m) :
    Platform.apply ⟨s, false⟩ (.load image) = .next ⟨{ s with mem := m }, false⟩ := by
  simp [Platform.apply, h]

theorem Platform.apply_coreStep_of_next {s t : State w} (h : stepAt s = .next t) :
    Platform.apply ⟨s, true⟩ .coreStep = .next ⟨t, true⟩ := by
  simp [Platform.apply, h]

end Moves

/-- Settles O50: each accepted move is read off its own case, and a load that fits, a step of a Running core, a start and
a reset are accepted. -/
theorem hostMovesAreLimited : Obligations.HostMovesAreLimited := by
  refine ⟨fun p q m h => ?_, fun s image hm hlen => ?_, fun _ => rfl, fun s hs => ?_, fun _ _ => rfl⟩
  · cases m with
    | load image =>
      obtain ⟨hp, m, -, rfl⟩ := Platform.load_next_cases h
      exact ⟨hp, hp, rfl⟩
    | start => exact Platform.start_next_cases h
    | coreStep =>
      obtain ⟨hp, t, ht, rfl⟩ := Platform.coreStep_next_cases h
      rw [stepAt_eq_step] at ht
      exact ⟨hp, hp, ht, step_mem ht⟩
    | reset regReset => exact (Host.Outcome.next.inj h).symm
  · obtain ⟨m, hload, hget⟩ := loadBytes_of_fits hm (show 0 + image.length ≤ 256 by omega)
    exact ⟨m, Platform.apply_load_of_ok hload, fun a _ => by simpa using hget a⟩
  · obtain ⟨t, ht⟩ := step_exists_next hs
    exact ⟨t, ht, Platform.apply_coreStep_of_next ((stepAt_eq_step s).trans ht)⟩

end Sys2Proof.Machine

/-! The encoding (spec/30_encoding.md R70 to R76): decode and encode are inverse to each other, and the bytes of no row. -/

namespace Sys2Proof

/-- Operand assembly on an instruction's own operand bytes. -/
theorem decodeOperands_operands_append (i : Instr) (rest : List Byte) :
    decodeOperands i.opcode (i.operands ++ rest) = .ok (i, rest) := by
  cases i <;> rfl

/-- Settles O1: the opcode byte names its own row, and the row's operand assembly consumes the operands. -/
theorem decodeOfEncodeIsTheInstruction : Obligations.DecodeOfEncodeIsTheInstruction := fun i rest =>
  (decode_opcodeByte i.opcode (i.operands ++ rest)).trans (decodeOperands_operands_append i rest)

/-- An instruction is fixed by its opcode and its operand bytes. -/
theorem Instr.eq_of_opcode_operands {i j : Instr} (ho : i.opcode = j.opcode) (hops : i.operands = j.operands) :
    i = j := by
  have h := decodeOperands_operands_append i []
  rw [ho, hops, decodeOperands_operands_append j []] at h
  cases h
  rfl

/-- Everything an answer of the decoder says of the bytes. -/
theorem eq_encode_append_of_decode {bs rest : List Byte} {i : Instr} (h : decode bs = .ok (i, rest)) :
    bs = encode i ++ rest := by
  cases bs with
  | nil => cases h
  | cons op bs =>
    rcases ho : decodeOpcode op with _ | o
    · simp [decode, ho] at h
    · simp only [decode, ho] at h
      rcases decodeOperands_cases o bs with ⟨j, tail, hd, rfl, rfl⟩ | ⟨-, hd⟩
      · cases hd.symm.trans h
        simp [encode, opcodeByte_of_decodeOpcode ho]
      · cases hd.symm.trans h

/-- Settles O2. -/
theorem decodedBytesAreTheEncoding : Obligations.DecodedBytesAreTheEncoding :=
  fun _ _ _ h => eq_encode_append_of_decode h

theorem encode_length (i : Instr) : (encode i).length = opcodeArity i.opcode + 1 :=
  congrArg (· + 1) (operands_length i)

/-- Settles O4: the decoded bytes are the encoding, whose length is arity + 1. -/
theorem opcodeFixesTheLength : Obligations.OpcodeFixesTheLength := by
  intro bs rest i h
  refine ⟨opcodeArity i.opcode, ?_, Machine.opcodeArity_le_two _, ?_⟩
  · rw [eq_encode_append_of_decode h, List.length_append, encode_length, Nat.add_comm]
  · cases i <;> rfl

/-- Settles O3, by running the decoder on the eight words. -/
theorem tableWordsDecode : Obligations.TableWordsDecode := ⟨rfl, rfl, rfl, rfl, rfl, rfl, rfl, rfl⟩

/-- A byte is illegal exactly when it is the opcode byte of no row. -/
theorem decodeOpcode_eq_none_iff (op : Byte) : decodeOpcode op = none ↔ ∀ o, op.toNat ≠ (opcodeByte o).toNat := by
  have htable (o : Opcode) : o ∈ opcodeTable := by cases o <;> decide
  simp [decodeOpcode, htable, BitVec.toNat_inj, eq_comm (a := op)]

/-- The numbers of the table's eight opcode bytes (R75). -/
theorem decodeOpcode_eq_none_iff_toNat (op : Byte) : decodeOpcode op = none ↔
    op.toNat ≠ 0x82 ∧ op.toNat ≠ 0x47 ∧ op.toNat ≠ 0xA2 ∧ op.toNat ≠ 0x01 ∧ op.toNat ≠ 0xA7 ∧ op.toNat ≠ 0x54 ∧
      op.toNat ≠ 0x55 ∧ op.toNat ≠ 0x56 := by
  rw [decodeOpcode_eq_none_iff]
  constructor
  · exact fun h => ⟨h .ldi, h .prn, h .mul, h .hlt, h .cmp, h .jmp, h .jeq, h .jne⟩
  · rintro ⟨h1, h2, h3, h4, h5, h6, h7, h8⟩ (_ | _ | _ | _ | _ | _ | _ | _)
    exacts [h1, h2, h3, h4, h5, h6, h7, h8]

end Sys2Proof

/-! The step's fetch (spec/30_encoding.md R80 to R86): which instruction runs, which fault the fetch raises, and what the
executor with fuel reports. -/

namespace Sys2Proof.Machine

/-- Settles O5: the 248 bytes are what the eight opcode bytes leave of 0 to 255, and the fetch raises at each of them. -/
theorem illegalOpcodeRaisesUnknownInstruction : Obligations.IllegalOpcodeRaisesUnknownInstruction := by
  refine ⟨fun op => ?_, fun s hs hpc ho => cycle_of_fetch_error hs (fetch_of_unknown hpc ho)⟩
  have := op.isLt
  rw [decodeOpcode_eq_none_iff_toNat]
  omega

section FetchedInstruction

variable {s : State} {i : Instr}

/-- An instruction that stands at the pc is the one that is fetched: the fetched one has its opcode and operands. -/
theorem fetch_of_holdsAtPc (h : s.HoldsAtPc i) : fetch s = .ok i := by
  obtain ⟨hlen, hget⟩ := h
  rw [encode_length] at hlen
  have hop : s.mem.get s.pc = opcodeByte i.opcode := hget 0 (Nat.succ_pos _)
  have hops : i.operands = [s.mem.get (s.pc + 1), s.mem.get (s.pc + 2)].take (opcodeArity i.opcode) := by
    rw [← operands_length]
    refine List.ext_getElem (by have := opcodeArity_le_two i.opcode; simp [operands_length, this]) fun k hk hk' => ?_
    have hk2 : k < 2 := by simp at hk'; omega
    rw [← List.getElem_cons_succ (a := opcodeByte i.opcode) (h := Nat.succ_lt_succ hk), List.getElem_take]
    refine (hget (k + 1) (Nat.succ_lt_succ hk)).symm.trans ?_
    match k, hk2 with
    | 0, _ | 1, _ => rfl
  obtain ⟨j, hj, hjo, hjops⟩ := fetch_of_fits (s := s) (by rw [hop, decodeOpcode_opcodeByte]) (show _ ≤ 255 by omega)
  rw [hj, Instr.eq_of_opcode_operands hjo (hjops.trans hops.symm)]

end FetchedInstruction

/-- Settles O6. -/
theorem stepRunsTheDecodedInstruction : Obligations.StepRunsTheDecodedInstruction :=
  fun _ _ hs hlen hget => cycle_of_fetch_ok hs (fetch_of_holdsAtPc ⟨hlen, hget⟩)

/-- Settles O7: `step` is the step at the default width. -/
theorem stepIsThePseudocodeOfTheCycle : Obligations.StepIsThePseudocodeOfTheCycle :=
  fun s hs => (stepAt_eq_step s).symm.trans (stepAt_eq_stepAsR85 hs)

/-- Settles O9. -/
theorem everyInstructionAnswersANextState : Obligations.EveryInstructionAnswersANextState := exec_exists_next

/-- A Running core executes an instruction of its opcode, with the bytes after the opcode as operands, when they fit. -/
theorem step_of_fits {s : State} {o : Opcode} (hs : s.run = .running) (ho : decodeOpcode (s.mem.get s.pc) = some o)
    (hfit : s.pc + opcodeArity o ≤ 255) : ∃ i, i.opcode = o ∧
      i.operands = [s.mem.get (s.pc + 1), s.mem.get (s.pc + 2)].take (opcodeArity o) ∧ step s = exec i s := by
  obtain ⟨i, hf, hi, hops⟩ := fetch_of_fits ho hfit
  exact ⟨i, hi, hops, cycle_of_fetch_ok hs hf⟩

/-- Settles O10. -/
theorem opcodeFetchAboveMemoryFaults : Obligations.OpcodeFetchAboveMemoryFaults := by
  refine fun s hs => ⟨fun hpc => ⟨memRead_of_le hpc, cycle_of_fetch_error hs (fetch_of_pc_gt hpc)⟩, fun hpc => ?_⟩
  refine ⟨_, memRead_of_lt (Nat.lt_succ_of_le hpc), fun ho => cycle_of_fetch_error hs (fetch_of_unknown hpc ho),
    fun o ho hfit => ?_⟩
  obtain ⟨i, hi, -, he⟩ := step_of_fits hs ho hfit
  exact ⟨i, hi, he⟩

/-- Settles O11: the first operand byte that does not fit is at 256, whether it is the first or the second one. -/
theorem operandFetchFollowsTheArity : Obligations.OperandFetchFollowsTheArity := by
  intro s o hs hpc hop
  have ho : decodeOpcode (s.mem.get s.pc) = some o := by rw [hop, decodeOpcode_opcodeByte]
  refine ⟨fun ha h1 => ?_, fun ha h1 h2 => ?_, step_of_fits hs ho⟩
  · rw [show s.pc + 1 = 256 by omega]
    exact cycle_of_fetch_error hs (fetch_of_missing hpc ho (by omega))
  · rw [show s.pc + 2 = 256 by omega]
    exact cycle_of_fetch_error hs (fetch_of_missing hpc ho (by omega))

section Memory

variable {s t : State} {m : Memory} {i : Instr}

theorem complete_withMem (s : State) (m : Memory) (i : Instr) :
    State.complete { s with mem := m } i = { s.complete i with mem := m } := by
  cases i with
  | jeq | jne => simp only [State.complete]; split <;> rfl
  | _ => rfl

/-- No meaning looks at memory (R23). -/
theorem exec_withMem (h : exec i s = .next t) (m : Memory) : exec i { s with mem := m } = .next { t with mem := m } := by
  rcases exec_next_cases h with ⟨f, hf, rfl⟩ | ⟨hwf, rfl⟩
  · exact exec_of_firstIllegalField hf _
  · rw [exec_of_wellFormed hwf, complete_withMem]

/-- The fetch looks at no byte but the opcode's and the operands' (R81). -/
theorem fetch_withMem {o : Opcode} (hop : s.mem.get s.pc = opcodeByte o)
    (hm : ∀ k, k < opcodeLength o → m.get (s.pc + k) = s.mem.get (s.pc + k)) :
    fetch { s with mem := m } = fetch s := by
  have ho : decodeOpcode (s.mem.get s.pc) = some o := by rw [hop, decodeOpcode_opcodeByte]
  have hom : decodeOpcode (m.get s.pc) = some o := by rw [← ho]; exact congrArg _ (hm 0 (Nat.succ_pos _))
  rcases Nat.lt_or_ge 255 s.pc with hpc | hpc
  · exact (fetch_of_pc_gt (s := { s with mem := m }) hpc).trans (fetch_of_pc_gt hpc).symm
  · rcases Nat.lt_or_ge 255 (s.pc + opcodeArity o) with hfit | hfit
    · exact (fetch_of_missing (s := { s with mem := m }) hpc hom hfit).trans (fetch_of_missing hpc ho hfit).symm
    · obtain ⟨i, hf, hi, hops⟩ := fetch_of_fits ho hfit
      obtain ⟨j, hfj, hj, hjops⟩ := fetch_of_fits (s := { s with mem := m }) hom hfit
      have hbytes : [m.get (s.pc + 1), m.get (s.pc + 2)].take (opcodeArity o) =
          [s.mem.get (s.pc + 1), s.mem.get (s.pc + 2)].take (opcodeArity o) := by
        refine List.ext_getElem (by simp) fun k hk _ => ?_
        obtain ⟨hka, hk2⟩ : k < opcodeArity o ∧ k < 2 := by simpa using hk
        have := hm (k + 1) (Nat.succ_lt_succ hka)
        match k, hk2 with
        | 0, _ | 1, _ => simpa using this
      rw [hf, hfj, Instr.eq_of_opcode_operands (hj.trans hi.symm) ((hjops.trans hbytes).trans hops.symm)]

end Memory

/-- Settles O12: the fetch gives the same, and neither a meaning nor a fault entry looks at memory. -/
theorem unusedLookaheadIsNotObservable : Obligations.UnusedLookaheadIsNotObservable := by
  intro s t m o hop hm h
  have hs := running_of_step h
  have hsm : ({ s with mem := m } : State).run = .running := hs
  have hfetch := fetch_withMem hop hm
  rcases step_running hs with ⟨i, hf, he⟩ | ⟨f, hf, he⟩
  · exact (cycle_of_fetch_ok hsm (hfetch.trans hf)).trans (exec_withMem (he.symm.trans h) m)
  · cases he.symm.trans h
    exact cycle_of_fetch_error hsm (hfetch.trans hf)

/-- Settles O41: the instruction at the pc completes. -/
theorem wellFormedInstructionDoesNotFault : Obligations.WellFormedInstructionDoesNotFault := by
  intro s i hs hlen hget hwf
  have hstep := cycle_of_fetch_ok (execute := exec) hs (fetch_of_holdsAtPc ⟨hlen, hget⟩)
  exact ⟨s.complete i, hstep.trans (exec_of_wellFormed hwf s), complete_notFaulted hs i⟩

section RegisterFields

variable {i : Instr} {a b : Byte}

theorem firstIllegalField_of_head {fs : List Byte} (h : i.registerFields = a :: fs) (ha : 7 < a.toNat) :
    firstIllegalField i = some a := by
  simp [firstIllegalField, h, ha]

theorem firstIllegalField_of_second (h : i.registerFields = [a, b]) (ha : a.toNat ≤ 7) (hb : 7 < b.toNat) :
    firstIllegalField i = some b := by
  simp [firstIllegalField, h, Nat.not_lt.2 ha, hb]

end RegisterFields

/-- Settles O40: the head of the register fields is `a`, and `b` is one for MUL and CMP alone. -/
theorem firstIllegalFieldRaisesInvalidRegister : Obligations.FirstIllegalFieldRaisesInvalidRegister := by
  refine ⟨fun a i s ha hi => ?_, fun a b i s ha hb hi => ?_,
    fun i s hwf => ⟨s.complete i, exec_of_wellFormed hwf s, s.complete_run i⟩⟩
  · refine exec_of_firstIllegalField ?_ s
    rcases hi with ⟨b, rfl | rfl | rfl⟩ | rfl | rfl | rfl | rfl
    all_goals exact firstIllegalField_of_head rfl ha
  · refine exec_of_firstIllegalField ?_ s
    rcases hi with rfl | rfl
    all_goals exact firstIllegalField_of_second rfl ha hb

/-- Settles O32. -/
theorem registerAccess : Obligations.RegisterAccess := by
  refine ⟨fun s r q v => ?_, fun f r => ?_, fun f hf => regField_of_le hf⟩
  · split
    · next h => rw [h, s.writeReg_readReg_self]
    · next h => exact s.writeReg_readReg_ne v h
  · rcases regField_cases f with ⟨hf, he⟩ | ⟨hf, he⟩
    · rw [he, Except.ok.injEq, Fin.ext_iff]
    · rw [he]
      exact ⟨nofun, fun h => by omega⟩

/-- A step from a pc of at most 256 completes an instruction that ends by 255 or jumps to a byte, or leaves the pc. -/
theorem step_pc_le {s t : State} (h : step s = .next t) (hpc : s.pc ≤ 256) : t.pc ≤ 256 := by
  rcases step_complete_or_raise h with ⟨i, hi, -, rfl⟩ | ⟨f, -, rfl⟩
  · exact complete_pc_le hi
  · exact hpc

/-- Settles O49, by induction on the number of steps. -/
theorem pcNeverPasses256 : Obligations.PcNeverPasses256 := by
  intro n
  induction n with
  | zero =>
    intro s t hpc h
    cases h
    exact hpc
  | succ n ih =>
    intro s t hpc h
    obtain ⟨u, hu, hr⟩ := core_run_succ.1 h
    exact ih u t (step_pc_le hu hpc) hr

section Executor

variable {s t : State} {o : Observation} {n : Nat}

theorem observe_of_running (h : s.run = .running) : observe s = none := if_pos h

theorem observe_of_stopped (h : s.run ≠ .running) : ∃ o, observe s = some o := ⟨_, if_neg h⟩

/-- A stopped core is reported at any fuel. -/
theorem runFor_of_observe (h : observe s = some o) (n : Nat) : runFor n s = .ended o := by
  cases n <;> simp [runFor, h]

theorem runFor_zero_of_running (h : s.run = .running) : runFor 0 s = .noVerdict := by
  simp [runFor, observe_of_running h]

theorem runFor_succ_of_step (h : step s = .next t) : runFor (n + 1) s = runFor n t := by
  simp [runFor, observe_of_running (running_of_step h), h]

/-- The executor reports after `k` steps what it reports with the fuel that is left. -/
theorem runFor_add_of_run {k : Nat} (h : Sys2Proof.core.run k s = .next t) : runFor (k + n) s = runFor n t := by
  induction k generalizing s with
  | zero =>
    cases h
    rw [Nat.zero_add]
  | succ k ih =>
    obtain ⟨u, hu, hr⟩ := core_run_succ.1 h
    rw [Nat.succ_add, runFor_succ_of_step hu, ih hr]

/-- A run of some number of steps up to the fuel that leads to a stopped core, as the statements observe it. -/
def EndsWithin (n : Nat) (s : State) (o : Observation) : Prop :=
  ∃ k, k ≤ n ∧ ∃ t, Sys2Proof.core.run k s = .next t ∧ t.run ≠ .running ∧ observe t = some o

theorem EndsWithin.runFor_eq (h : EndsWithin n s o) : runFor n s = .ended o := by
  obtain ⟨k, hk, t, hr, -, ho⟩ := h
  rw [← Nat.add_sub_cancel' hk, runFor_add_of_run hr, runFor_of_observe ho]

theorem runFor_of_still_running (h : Sys2Proof.core.run n s = .next t) (ht : t.run = .running) :
    runFor n s = .noVerdict :=
  (runFor_add_of_run (n := 0) h).trans (runFor_zero_of_running ht)

/-- Within the fuel a run ends, or all of the fuel is spent and the core still runs. -/
theorem endsWithin_or_still_running (n : Nat) (s : State) :
    (∃ o, EndsWithin n s o) ∨ ∃ t, Sys2Proof.core.run n s = .next t ∧ t.run = .running := by
  by_cases hs : s.run = .running
  case neg =>
    obtain ⟨o, ho⟩ := observe_of_stopped hs
    exact .inl ⟨o, 0, Nat.zero_le n, s, rfl, hs, ho⟩
  induction n generalizing s with
  | zero => exact .inr ⟨s, rfl, hs⟩
  | succ n ih =>
    obtain ⟨u, hu⟩ := step_exists_next hs
    by_cases hur : u.run = .running
    · rcases ih u hur with ⟨o, k, hk, t, hr, ht⟩ | ⟨t, hr, ht⟩
      · exact .inl ⟨o, k + 1, Nat.succ_le_succ hk, t, core_run_succ.2 ⟨u, hu, hr⟩, ht⟩
      · exact .inr ⟨t, core_run_succ.2 ⟨u, hu, hr⟩, ht⟩
    · obtain ⟨o, ho⟩ := observe_of_stopped hur
      exact .inl ⟨o, 1, Nat.succ_le_succ (Nat.zero_le n), u, core_run_succ.2 ⟨u, hu, rfl⟩, hur, ho⟩

theorem runFor_eq_ended_iff : runFor n s = .ended o ↔ EndsWithin n s o := by
  refine ⟨fun h => ?_, EndsWithin.runFor_eq⟩
  rcases endsWithin_or_still_running n s with ⟨p, hp⟩ | ⟨t, hr, ht⟩
  · cases hp.runFor_eq.symm.trans h
    exact hp
  · cases (runFor_of_still_running hr ht).symm.trans h

theorem runFor_eq_noVerdict_iff :
    runFor n s = .noVerdict ↔ ∃ t, Sys2Proof.core.run n s = .next t ∧ t.run = .running := by
  refine ⟨fun h => ?_, fun ⟨t, hr, ht⟩ => runFor_of_still_running hr ht⟩
  rcases endsWithin_or_still_running n s with ⟨o, ho⟩ | hr
  · cases ho.runFor_eq.symm.trans h
  · exact hr

theorem EndsWithin.mono {k : Nat} (h : EndsWithin n s o) : EndsWithin (n + k) s o := by
  obtain ⟨j, hj, ht⟩ := h
  exact ⟨j, Nat.le_add_right_of_le hj, ht⟩

/-- A core at `JMP R0` in address 0, with 0 in `R0`: its step goes back to itself. -/
def jumpToSelf : State where
  mem := [(0, opcodeByte .jmp)]
  x := Vector.replicate 8 0
  pc := 0
  flags := ⟨false, false, false⟩
  run := .running
  out := []

theorem step_jumpToSelf : step jumpToSelf = .next jumpToSelf := rfl

theorem jumpToSelf_inv : jumpToSelf.Inv := ⟨by decide, by decide, .inl rfl, nofun⟩

theorem run_jumpToSelf (n : Nat) : Sys2Proof.core.run n jumpToSelf = .next jumpToSelf := by
  induction n with
  | zero => rfl
  | succ n ih => exact core_run_succ.2 ⟨_, step_jumpToSelf, ih⟩

end Executor

/-- Settles O54: a run ends within its fuel or is still running when it is spent, and a jump to itself never ends. -/
theorem fuelNeverReportsAHalt : Obligations.FuelNeverReportsAHalt :=
  ⟨fun _ _ _ => runFor_eq_ended_iff, fun _ _ => runFor_eq_noVerdict_iff,
    fun _ _ _ _ h => (runFor_eq_ended_iff.1 h).mono.runFor_eq,
    jumpToSelf, jumpToSelf_inv, fun n => runFor_of_still_running (run_jumpToSelf n) rfl⟩

end Sys2Proof.Machine

/-! The assembler (spec/30_encoding.md R79): what each parser gives on a text that is written from its parts, from
characters up to a line, and from lines up to a program. -/

namespace Sys2Proof.Machine

open Sys2Proof.Statements

section Blanks

variable {cs : List Char}

/-- The model's split is the library's. -/
theorem splitAtChar_eq_splitOn (c : Char) (cs : List Char) : splitAtChar c cs = cs.splitOn c := by
  induction cs with
  | nil => rfl
  | cons d cs ih =>
    rw [List.splitOn_cons_eq_if_modifyHead, splitAtChar, ih]
    by_cases hd : d = c
    · simp [hd]
    · obtain ⟨p, ps, hp⟩ := List.exists_cons_of_ne_nil (List.splitOn_ne_nil c cs)
      simp [hd, hp]

/-- The characters that `trimBlanks` drops at the ends. -/
def isBlank (c : Char) : Bool := c = ' ' || c = '\t' || c = '\r'

theorem trimBlanks_eq_dropWhile_isBlank (cs : List Char) :
    trimBlanks cs = ((cs.dropWhile isBlank).reverse.dropWhile isBlank).reverse := rfl

/-- Not empty, and no blank at either end. -/
def Trimmed (cs : List Char) : Prop :=
  (∃ c ∈ cs.head?, isBlank c = false) ∧ ∃ c ∈ cs.getLast?, isBlank c = false

theorem dropWhile_append_of_head {p : Char → Bool} (h : ∃ c ∈ cs.head?, p c = false) (ds : List Char) :
    (cs ++ ds).dropWhile p = cs ++ ds := by
  obtain ⟨c, hc, hp⟩ := h
  obtain ⟨cs, rfl⟩ := List.head?_eq_some_iff.1 hc
  simp [hp]

/-- Blanks after a trimmed text are dropped, and nothing else. -/
theorem Trimmed.trimBlanks_append (h : Trimmed cs) {bs : List Char} (hb : ∀ b ∈ bs, isBlank b = true) :
    trimBlanks (cs ++ bs) = cs := by
  obtain ⟨hhead, hlast⟩ := h
  rw [← List.head?_reverse] at hlast
  have hrev := dropWhile_append_of_head hlast []
  rw [List.append_nil] at hrev
  rw [trimBlanks_eq_dropWhile_isBlank, dropWhile_append_of_head hhead, List.reverse_append,
    List.dropWhile_append_of_pos (by simpa using hb), hrev, List.reverse_reverse]

theorem Trimmed.trimBlanks_eq (h : Trimmed cs) : trimBlanks cs = cs := by
  simpa using h.trimBlanks_append (bs := []) (by simp)

/-- A blank before a text is dropped. -/
theorem trimBlanks_cons_space (cs : List Char) : trimBlanks (' ' :: cs) = trimBlanks cs := rfl

/-- A text between two trimmed ones is not looked at. -/
theorem Trimmed.append {ds : List Char} (h : Trimmed cs) (hd : Trimmed ds) (mid : List Char) :
    Trimmed (cs ++ mid ++ ds) := by
  obtain ⟨⟨c, hc, hcb⟩, -⟩ := h
  obtain ⟨-, d, hd, hdb⟩ := hd
  rw [Option.mem_def] at hc hd
  exact ⟨⟨c, by simp [hc], hcb⟩, d, by simp [hd], hdb⟩

theorem Trimmed.ne_nil (h : Trimmed cs) : cs ≠ [] := by
  rintro rfl
  obtain ⟨⟨c, hc, -⟩, -⟩ := h
  cases hc

end Blanks

section Words

variable {cs : List Char}

/-- The characters of mnemonics, operands and label names. -/
def wordChar (c : Char) : Bool := c.isAlphanum || c = '_'

/-- A mnemonic, an operand or a label name: no separator stands in it. -/
def IsWord (cs : List Char) : Prop := cs ≠ [] ∧ ∀ c ∈ cs, wordChar c = true

theorem IsWord.notMem (h : IsWord cs) {c : Char} (hc : wordChar c = false) : c ∉ cs :=
  fun hmem => Bool.false_ne_true (hc.symm.trans (h.2 c hmem))

theorem isBlank_of_wordChar {c : Char} (h : wordChar c = true) : isBlank c = false := by
  by_contra hb
  simp only [isBlank, Bool.not_eq_false, Bool.or_eq_true, decide_eq_true_eq] at hb
  obtain ((rfl | rfl) | rfl) := hb <;> exact absurd h (by decide)

theorem IsWord.trimmed (h : IsWord cs) : Trimmed cs := by
  obtain ⟨hne, hcs⟩ := h
  exact ⟨⟨_, List.head_mem_head? hne, isBlank_of_wordChar (hcs _ (List.head_mem hne))⟩,
    _, List.getLast_mem_getLast? hne, isBlank_of_wordChar (hcs _ (List.getLast_mem hne))⟩

theorem isWord_of_labelName (h : labelName cs) : IsWord cs := by
  obtain ⟨⟨c, cs, rfl, -⟩, hcs⟩ := h
  exact ⟨List.cons_ne_nil c cs, fun d hd => by simpa [wordChar] using hcs d hd⟩

theorem isAlpha_iff_toNat {c : Char} :
    c.isAlpha = true ↔ (65 ≤ c.toNat ∧ c.toNat ≤ 90) ∨ (97 ≤ c.toNat ∧ c.toNat ≤ 122) := by
  simp [Char.isAlpha, Char.isUpper, Char.isLower, UInt32.le_iff_toNat_le]

/-- What the three ranges of `digitValue` read. -/
theorem digitValue_cases {c : Char} {d : Nat} (h : digitValue c = some d) :
    c.isDigit = true ∨ (97 ≤ c.toNat ∧ c.toNat ≤ 102 ∧ d = c.toNat - 87) ∨
      (65 ≤ c.toNat ∧ c.toNat ≤ 70 ∧ d = c.toNat - 55) := by
  have hle (a b : Char) : a ≤ b ↔ a.toNat ≤ b.toNat := Iff.rfl
  simp only [digitValue, hle, ← Char.isDigit_iff_toNat] at h
  split at h
  · next hc => exact .inl hc
  · split at h
    · next hc => exact .inr (.inl ⟨hc.1, hc.2, (Option.some.inj h).symm⟩)
    · split at h
      · next hc => exact .inr (.inr ⟨hc.1, hc.2, (Option.some.inj h).symm⟩)
      · cases h

theorem wordChar_of_digitValue {c : Char} {d : Nat} (h : digitValue c = some d) : wordChar c = true := by
  have hc : c.isDigit = true ∨ c.isAlpha = true := by
    rw [isAlpha_iff_toNat]
    exact (digitValue_cases h).imp_right fun h => by omega
  rcases hc with hc | hc <;> simp [wordChar, Char.isAlphanum, hc]

theorem wordChar_of_mem_digits {base acc n : Nat} (h : digitsFrom base acc cs = some n) {c : Char} (hc : c ∈ cs) :
    wordChar c = true := by
  induction cs generalizing acc with
  | nil => cases hc
  | cons d cs ih =>
    simp only [digitsFrom] at h
    split at h
    · next v hv =>
      split at h
      · rcases List.mem_cons.1 hc with rfl | hc
        · exact wordChar_of_digitValue hv
        · exact ih h hc
      · cases h
    · cases h

/-- What is read as a number of one byte is a word. -/
theorem isWord_of_byteOf {base : Nat} {v : Byte} (h : byteOf base cs = some v) : IsWord cs := by
  simp only [byteOf] at h
  split at h
  · next c cs n hn => exact ⟨List.cons_ne_nil c cs, fun d hd => wordChar_of_mem_digits hn hd⟩
  · cases h

theorem IsWord.cons (h : IsWord cs) {c : Char} (hc : wordChar c = true) : IsWord (c :: cs) :=
  ⟨List.cons_ne_nil c cs, by simpa [hc] using h.2⟩

theorem isWord_of_parseNumber {v : Byte} (h : parseNumber cs = some v) : IsWord cs := by
  unfold parseNumber at h
  split at h
  · exact ((isWord_of_byteOf h).cons (by decide)).cons (by decide)
  · exact ((isWord_of_byteOf h).cons (by decide)).cons (by decide)
  · exact isWord_of_byteOf h

theorem isWord_of_parseReg {v : Byte} (h : parseReg cs = some v) : IsWord cs := by
  unfold parseReg at h
  split at h
  · exact (isWord_of_byteOf h).cons (by decide)
  · cases h

end Words

section Numbers

theorem digitsFrom_append (base acc : Nat) (cs ds : List Char) :
    digitsFrom base acc (cs ++ ds) = (digitsFrom base acc cs).bind fun n => digitsFrom base n ds := by
  induction cs generalizing acc with
  | nil => rfl
  | cons c cs ih =>
    simp only [List.cons_append, digitsFrom]
    split
    · split
      · exact ih _
      · rfl
    · rfl

/-- Digits written in a base up to 16 are read back, also when `f` spells each digit another way. -/
theorem digitsFrom_toDigits {base : Nat} (h1 : 1 < base) (h16 : base ≤ 16) {f : Char → Char}
    (hf : ∀ d < 16, digitValue (f d.digitChar) = some d) (n : Nat) :
    digitsFrom base 0 ((Nat.toDigits base n).map f) = some n := by
  induction n using Nat.strong_induction_on with
  | _ n ih =>
    have hdigit {acc d : Nat} (hd : d < base) : digitsFrom base acc [f d.digitChar] = some (acc * base + d) := by
      simp [digitsFrom, hf d (hd.trans_le h16), hd]
    rcases Nat.lt_or_ge n base with hn | hn
    · rw [Nat.toDigits_of_lt_base hn, List.map_singleton, hdigit hn, Nat.zero_mul, Nat.zero_add]
    · have hpos : 0 < n := Nat.zero_lt_of_lt (h1.trans_le hn)
      rw [Nat.toDigits_of_base_le h1 hn, List.map_append, List.map_singleton, digitsFrom_append,
        ih (n / base) (Nat.div_lt_self hpos h1), Option.bind_some, hdigit (Nat.mod_lt n (Nat.zero_lt_of_lt h1)),
        Nat.div_add_mod']

theorem byteOf_toDigits {base : Nat} (h1 : 1 < base) (h16 : base ≤ 16) {f : Char → Char}
    (hf : ∀ d < 16, digitValue (f d.digitChar) = some d) (v : Byte) :
    byteOf base ((Nat.toDigits base v.toNat).map f) = some v := by
  obtain ⟨c, cs, hcs⟩ := List.exists_cons_of_ne_nil (Nat.toDigits_ne_nil (n := v.toNat) (b := base))
  have hn := digitsFrom_toDigits h1 h16 hf v.toNat
  rw [hcs] at hn ⊢
  simp only [List.map_cons] at hn ⊢
  simp [byteOf, hn, v.isLt]

/-- The digits as `Nat.toDigits` spells them. -/
theorem byteOf_toDigits_lower {base : Nat} (h1 : 1 < base) (h16 : base ≤ 16) (v : Byte) :
    byteOf base (Nat.toDigits base v.toNat) = some v := by
  simpa using byteOf_toDigits h1 h16 (f := id) (by decide) v

/-- Decimal digits hold no `x` or `b`, so they are read as decimal. -/
theorem parseNumber_of_isDigit {cs : List Char} (h : ∀ c ∈ cs, c.isDigit = true) : parseNumber cs = byteOf 10 cs := by
  unfold parseNumber
  split
  · exact absurd (h 'x' (by simp)) (by decide)
  · exact absurd (h 'b' (by simp)) (by decide)
  · rfl

theorem parseNumber_toDigits (v : Byte) : parseNumber (Nat.toDigits 10 v.toNat) = some v := by
  rw [parseNumber_of_isDigit fun c hc => Nat.isDigit_of_mem_toDigits (by decide) (by decide) hc,
    byteOf_toDigits_lower (by decide) (by decide)]

/-- Every way R79 writes a number is read as that number. -/
theorem parseNumber_of_mem_numberTexts {v : Byte} {cs : List Char} (h : cs ∈ numberTexts v) :
    parseNumber cs = some v := by
  simp only [numberTexts, List.mem_cons, List.not_mem_nil, or_false] at h
  rcases h with rfl | rfl | rfl | rfl
  · exact parseNumber_toDigits v
  · exact byteOf_toDigits_lower (by decide) (by decide) v
  · exact byteOf_toDigits (by decide) (by decide) (by decide) v
  · exact byteOf_toDigits_lower (by decide) (by decide) v

theorem parseReg_regText (n : Byte) : parseReg (regText n) = some n :=
  byteOf_toDigits_lower (by decide) (by decide) n

theorem isDigit_of_isAlpha {c : Char} (h : c.isAlpha = true) : c.isDigit = false := by
  rw [isAlpha_iff_toNat] at h
  rw [← Bool.not_eq_true, Char.isDigit_iff_toNat]
  simp only [Char.reduceToNat]
  omega

theorem ten_le_digitValue_of_isAlpha {c : Char} (h : c.isAlpha = true) {d : Nat} (hd : digitValue c = some d) :
    10 ≤ d := by
  rcases digitValue_cases hd with hc | hc
  · simp [isDigit_of_isAlpha h] at hc
  · omega

/-- A label name is no number: its first letter is no decimal digit. -/
theorem parseNumber_of_labelName {name : List Char} (h : labelName name) : parseNumber name = none := by
  obtain ⟨⟨c, cs, rfl, hc⟩, -⟩ := h
  unfold parseNumber
  split
  · next heq => cases heq; exact absurd hc (by decide)
  · next heq => cases heq; exact absurd hc (by decide)
  · have hdigits : digitsFrom 10 0 (c :: cs) = none := by
      simp only [digitsFrom]
      split
      · next d hd => exact if_neg (Nat.not_lt.2 (ten_le_digitValue_of_isAlpha hc hd))
      · rfl
    simp [byteOf, hdigits]

end Numbers

section Lines

variable {m : List Char} {ws : List (List Char)}

/-- The operands of an instruction as R79 writes them: a comma and a blank before each one but the first. -/
def operandsText (w : List Char) (ws : List (List Char)) : List Char := w ++ ws.flatMap fun v => ',' :: ' ' :: v

/-- A mnemonic and its operands as R79 writes them. `instrText_eq_instrLine` ties it to `instrText`. -/
def instrLine (m : List Char) : List (List Char) → List Char
  | [] => m
  | w :: ws => m ++ ' ' :: operandsText w ws

theorem trimmed_operandsText {w : List Char} (hw : Trimmed w) (hws : ∀ v ∈ ws, IsWord v) :
    Trimmed (operandsText w ws) := by
  induction ws generalizing w with
  | nil => simpa [operandsText] using hw
  | cons v ws ih =>
    obtain ⟨hv, hws⟩ := List.forall_mem_cons.1 hws
    simpa [operandsText] using ih (hw.append hv.trimmed [',', ' ']) hws

theorem splitAtChar_operandsText {w : List Char} (hw : ',' ∉ w) (hws : ∀ v ∈ ws, IsWord v) :
    splitAtChar ',' (operandsText w ws) = w :: ws.map (' ' :: ·) := by
  rw [splitAtChar_eq_splitOn]
  induction ws generalizing w with
  | nil => simpa [operandsText] using List.splitOn_eq_singleton hw
  | cons v ws ih =>
    obtain ⟨hv, hws⟩ := List.forall_mem_cons.1 hws
    have hcomma : ',' ∉ ' ' :: v := by simpa using hv.notMem (by decide)
    rw [List.map_cons, ← ih hcomma hws]
    exact List.splitOn_append_cons_self_of_not_mem hw _

theorem trimBlanks_operands {w : List Char} (hw : IsWord w) (hws : ∀ v ∈ ws, IsWord v) :
    (w :: ws.map (' ' :: ·)).map trimBlanks = w :: ws := by
  rw [List.map_cons, hw.trimmed.trimBlanks_eq, List.map_map]
  have hid : ∀ v ∈ ws, trimBlanks (' ' :: v) = id v := fun v hv => (hws v hv).trimmed.trimBlanks_eq
  exact congrArg _ ((List.map_congr_left hid).trans ws.map_id)

/-- A body splits into its mnemonic and its operands. -/
theorem parseBody_instrLine (hm : IsWord m) (hws : ∀ w ∈ ws, IsWord w) :
    parseBody (instrLine m ws) = (parseInstr m ws).map some := by
  have hblank : ∀ c ∈ m, (decide (c ≠ ' ') && decide (c ≠ '\t')) = true := fun c hc => by
    have := hm.2 c hc
    simp only [Bool.and_eq_true, decide_eq_true_eq]
    constructor <;> rintro rfl <;> exact absurd this (by decide)
  cases ws with
  | nil =>
    simp only [parseBody, instrLine, List.takeWhile_eq_self_iff.2 hblank, List.drop_length, if_neg hm.1]
    rfl
  | cons w ws =>
    obtain ⟨hw, hws⟩ := List.forall_mem_cons.1 hws
    have hops := trimmed_operandsText hw.trimmed hws
    have htake (ops : List Char) : (m ++ ' ' :: ops).takeWhile (fun c => c ≠ ' ' && c ≠ '\t') = m := by
      rw [List.takeWhile_append_of_pos hblank]
      simp
    simp only [parseBody, instrLine, htake, List.drop_left, trimBlanks_cons_space, hops.trimBlanks_eq, if_neg hops.ne_nil,
      splitAtChar_operandsText (hw.notMem (by decide)) hws, trimBlanks_operands hw hws]
    exact if_neg (by simp)

theorem trimmed_instrLine (hm : IsWord m) (hws : ∀ w ∈ ws, IsWord w) : Trimmed (instrLine m ws) := by
  cases ws with
  | nil => exact hm.trimmed
  | cons w ws =>
    obtain ⟨hw, hws⟩ := List.forall_mem_cons.1 hws
    simpa [instrLine] using hm.trimmed.append (trimmed_operandsText hw.trimmed hws) [' ']

/-- The only separators in an instruction's text are blanks and commas. -/
theorem notMem_instrLine (hm : IsWord m) (hws : ∀ w ∈ ws, IsWord w) {c : Char} (hc : wordChar c = false)
    (hblank : c ≠ ' ') (hcomma : c ≠ ',') : c ∉ instrLine m ws := by
  have := hm.notMem hc
  cases ws with
  | nil => exact this
  | cons w ws =>
    have hnot (v : List Char) (hv : v ∈ w :: ws) : c ∉ v := (hws v hv).notMem hc
    simp_all [instrLine, operandsText]

/-- A line is its labels and its body, from the pieces between the colons of its text before the comment. -/
theorem parseLine_of_pieces {line body : List Char} {labels : List (List Char)} {instr : Option AsmInstr}
    (hpieces : (splitAtChar ':' (line.takeWhile fun c => c ≠ ';')).map trimBlanks = labels ++ [body])
    (hlabels : [] ∉ labels) (hbody : parseBody body = some instr) : parseLine line = some ⟨labels, instr⟩ := by
  simp only [parseLine, hpieces, List.getLastD_concat, List.dropLast_concat, hbody, if_neg hlabels]

theorem takeWhile_noComment {text : List Char} (h : ';' ∉ text) : text.takeWhile (fun c => c ≠ ';') = text :=
  List.takeWhile_eq_self_iff.2 fun _ hc => decide_eq_true fun hcs => h (hcs ▸ hc)

/-- Before the comment of what may follow an instruction there are only blanks. -/
theorem takeWhile_append_of_endsLine {tail : List Char} (h : endsLine tail) : ∃ bs, (∀ b ∈ bs, isBlank b = true) ∧
    ∀ text, ';' ∉ text → (text ++ tail).takeWhile (fun c => c ≠ ';') = text ++ bs := by
  rcases h with rfl | ⟨comment, -, rfl⟩
  · exact ⟨[], by simp, fun text h => by simpa using takeWhile_noComment h⟩
  · refine ⟨[' '], by simp [isBlank], fun text h => ?_⟩
    rw [List.takeWhile_append_of_pos (List.takeWhile_eq_self_iff.1 (takeWhile_noComment h))]
    simp

variable {i : AsmInstr}

/-- An instruction's text, with or without a comment after it, is a line with that instruction. -/
theorem parseLine_instrLine (hm : IsWord m) (hws : ∀ w ∈ ws, IsWord w) (hi : parseInstr m ws = some i)
    {tail : List Char} (htail : endsLine tail) : parseLine (instrLine m ws ++ tail) = some ⟨[], some i⟩ := by
  obtain ⟨bs, hbs, htake⟩ := takeWhile_append_of_endsLine htail
  have hcolon : ':' ∉ instrLine m ws ++ bs := by
    rw [List.mem_append, not_or]
    exact ⟨notMem_instrLine hm hws (by decide) (by decide) (by decide), fun hb => absurd (hbs _ hb) (by decide)⟩
  refine parseLine_of_pieces (body := instrLine m ws) ?_ List.not_mem_nil (by rw [parseBody_instrLine hm hws, hi]; rfl)
  rw [htake _ (notMem_instrLine hm hws (by decide) (by decide) (by decide)), splitAtChar_eq_splitOn,
    List.splitOn_eq_singleton hcolon, List.map_singleton, (trimmed_instrLine hm hws).trimBlanks_append hbs, List.nil_append]

/-- A label before an instruction's text is the label of the line. -/
theorem parseLine_label_instrLine (hm : IsWord m) (hws : ∀ w ∈ ws, IsWord w) (hi : parseInstr m ws = some i)
    {name : List Char} (hname : IsWord name) :
    parseLine (name ++ ':' :: ' ' :: instrLine m ws) = some ⟨[name], some i⟩ := by
  have hcolon : ':' ∉ ' ' :: instrLine m ws := by
    simpa using notMem_instrLine hm hws (c := ':') (by decide) (by decide) (by decide)
  have hcomment : ';' ∉ name ++ ':' :: ' ' :: instrLine m ws := by
    simpa using ⟨hname.notMem (by decide), notMem_instrLine hm hws (by decide) (by decide) (by decide)⟩
  refine parseLine_of_pieces (body := instrLine m ws) ?_ (by simpa using hname.1.symm)
    (by rw [parseBody_instrLine hm hws, hi]; rfl)
  rw [takeWhile_noComment hcomment, splitAtChar_eq_splitOn,
    List.splitOn_append_cons_self_of_not_mem (hname.notMem (by decide)), List.splitOn_eq_singleton hcolon]
  simp [trimBlanks_cons_space, hname.trimmed.trimBlanks_eq, (trimmed_instrLine hm hws).trimBlanks_eq]

end Lines

section InstructionTexts

/-- The mnemonic of each opcode (R79). -/
def mnemonic : Opcode → List Char
  | .ldi => ['L', 'D', 'I']
  | .prn => ['P', 'R', 'N']
  | .mul => ['M', 'U', 'L']
  | .hlt => ['H', 'L', 'T']
  | .cmp => ['C', 'M', 'P']
  | .jmp => ['J', 'M', 'P']
  | .jeq => ['J', 'E', 'Q']
  | .jne => ['J', 'N', 'E']

theorem isWord_mnemonic (o : Opcode) : IsWord (mnemonic o) := by cases o <;> simp [IsWord, mnemonic, wordChar]

/-- The opcode of a line's instruction; only LDI uses a label. -/
def AsmInstr.opcode : AsmInstr → Opcode
  | .plain i => i.opcode
  | .ldiLabel _ _ => .ldi

/-- The operands of an instruction in `instrText`. -/
def operandTexts : AsmInstr → List (List Char)
  | .plain (.ldi a b) => [regText a, Nat.toDigits 10 b.toNat]
  | .plain (.prn a) => [regText a]
  | .plain (.mul a b) => [regText a, regText b]
  | .plain .hlt => []
  | .plain (.cmp a b) => [regText a, regText b]
  | .plain (.jmp a) => [regText a]
  | .plain (.jeq a) => [regText a]
  | .plain (.jne a) => [regText a]
  | .ldiLabel a name => [regText a, name]

/-- A label used as an immediate has a name of R79. -/
def usesLabelName : AsmInstr → Prop
  | .plain _ => True
  | .ldiLabel _ name => labelName name

theorem instrLine_one (m w : List Char) : (m ++ [' ']) ++ w = instrLine m [w] := by simp [instrLine, operandsText]

theorem instrLine_two (m w v : List Char) : (m ++ [' ']) ++ w ++ [',', ' '] ++ v = instrLine m [w, v] := by
  simp [instrLine, operandsText]

theorem instrText_eq_instrLine (i : AsmInstr) : instrText i = instrLine (mnemonic i.opcode) (operandTexts i) := by
  cases i with
  | ldiLabel a name => exact instrLine_two (mnemonic .ldi) (regText a) name
  | plain i =>
    cases i with
    | hlt => rfl
    | ldi a b => exact instrLine_two (mnemonic .ldi) (regText a) (Nat.toDigits 10 b.toNat)
    | mul a b => exact instrLine_two (mnemonic .mul) (regText a) (regText b)
    | cmp a b => exact instrLine_two (mnemonic .cmp) (regText a) (regText b)
    | prn a => exact instrLine_one (mnemonic .prn) (regText a)
    | jmp a => exact instrLine_one (mnemonic .jmp) (regText a)
    | jeq a => exact instrLine_one (mnemonic .jeq) (regText a)
    | jne a => exact instrLine_one (mnemonic .jne) (regText a)

theorem isWord_regText (a : Byte) : IsWord (regText a) := isWord_of_parseReg (parseReg_regText a)

theorem isWord_operandTexts {i : AsmInstr} (h : usesLabelName i) : ∀ w ∈ operandTexts i, IsWord w := by
  have hreg := isWord_regText
  have hnum (b : Byte) := isWord_of_parseNumber (parseNumber_toDigits b)
  rcases i with (_ | _ | _ | _ | _ | _ | _ | _) | ⟨a, name⟩
  case ldiLabel => simpa [operandTexts, hreg] using isWord_of_labelName h
  all_goals simp [operandTexts, hreg, hnum]

/-- An LDI whose immediate is a number. -/
theorem parseLdi_of_number {imm : List Char} {b : Byte} (h : parseNumber imm = some b) (a : Byte) :
    parseLdi (regText a) imm = some (.plain (.ldi a b)) := by
  simp [parseLdi, parseReg_regText, h]

/-- An LDI whose immediate is a label. -/
theorem parseLdi_of_labelName {name : List Char} (h : labelName name) (a : Byte) :
    parseLdi (regText a) name = some (.ldiLabel a name) := by
  have hnum := parseNumber_of_labelName h
  obtain ⟨⟨c, cs, rfl, hc⟩, -⟩ := h
  simp [parseLdi, parseReg_regText, hnum, isDigit_of_isAlpha hc]

theorem asmOneReg_regText (mk : Byte → Instr) (a : Byte) : asmOneReg mk (regText a) = some (.plain (mk a)) := by
  simp [asmOneReg, parseReg_regText]

theorem asmTwoRegs_regText (mk : Byte → Byte → Instr) (a b : Byte) :
    asmTwoRegs mk (regText a) (regText b) = some (.plain (mk a b)) := by
  simp [asmTwoRegs, parseReg_regText]

theorem parseInstr_operandTexts {i : AsmInstr} (h : usesLabelName i) :
    parseInstr (mnemonic i.opcode) (operandTexts i) = some i := by
  cases i with
  | ldiLabel a name => exact parseLdi_of_labelName h a
  | plain i =>
    cases i with
    | ldi a b => exact parseLdi_of_number (parseNumber_toDigits b) a
    | hlt => rfl
    | mul a b => exact asmTwoRegs_regText .mul a b
    | cmp a b => exact asmTwoRegs_regText .cmp a b
    | prn a => exact asmOneReg_regText .prn a
    | jmp a => exact asmOneReg_regText .jmp a
    | jeq a => exact asmOneReg_regText .jeq a
    | jne a => exact asmOneReg_regText .jne a

end InstructionTexts

section OneLine

/-- A text of one line with one instruction assembles to its bytes. -/
theorem assemble_of_parseLine {text : List Char} {i : Instr} (hline : '\n' ∉ text)
    (h : parseLine text = some ⟨[], some (.plain i)⟩) : assemble text = some (encode i) := by
  simp [assemble, assembleInstrs, splitAtChar_eq_splitOn, List.splitOn_eq_singleton hline, collect, h, resolveLines,
    labelAddresses, resolve]

theorem assemble_instrLine_append {m : List Char} {ws : List (List Char)} {i : Instr} (hm : IsWord m)
    (hws : ∀ w ∈ ws, IsWord w) (hi : parseInstr m ws = some (.plain i)) {tail : List Char} (htail : endsLine tail) :
    assemble (instrLine m ws ++ tail) = some (encode i) := by
  refine assemble_of_parseLine ?_ (parseLine_instrLine hm hws hi htail)
  rw [List.mem_append, not_or]
  refine ⟨notMem_instrLine hm hws (by decide) (by decide) (by decide), ?_⟩
  rcases htail with rfl | ⟨comment, hcomment, rfl⟩
  · exact List.not_mem_nil
  · simpa using hcomment

theorem assemble_instrText_append (i : Instr) {tail : List Char} (htail : endsLine tail) :
    assemble (instrText (.plain i) ++ tail) = some (encode i) := by
  rw [instrText_eq_instrLine]
  have hi : usesLabelName (.plain i) := trivial
  exact assemble_instrLine_append (isWord_mnemonic _) (isWord_operandTexts hi) (parseInstr_operandTexts hi) htail

/-- An LDI with its immediate in any of R79's ways to write a number. -/
theorem assemble_ldi_append (a : Byte) {b : Byte} {imm tail : List Char} (himm : imm ∈ numberTexts b)
    (htail : endsLine tail) :
    assemble ("LDI ".toList ++ regText a ++ ", ".toList ++ imm ++ tail) = some (encode (.ldi a b)) := by
  have hb := parseNumber_of_mem_numberTexts himm
  have hwords : ∀ w ∈ [regText a, imm], IsWord w := by simpa using ⟨isWord_regText a, isWord_of_parseNumber hb⟩
  rw [← assemble_instrLine_append (isWord_mnemonic .ldi) hwords (parseLdi_of_number hb a) htail, ← instrLine_two]
  rfl

end OneLine

/-- Settles O56: LDI with each way to write its immediate, and the other instructions as `instrText` writes them. -/
theorem assembledTextIsItsInstructionsBytes : Obligations.AssembledTextIsItsInstructionsBytes :=
  fun a b _ _ himm h => ⟨assemble_ldi_append a himm h, assemble_instrText_append (.prn a) h,
    assemble_instrText_append (.mul a b) h, assemble_instrText_append .hlt h, assemble_instrText_append (.cmp a b) h,
    assemble_instrText_append (.jmp a) h, assemble_instrText_append (.jeq a) h, assemble_instrText_append (.jne a) h⟩

section Program

/-- What a source line is parsed to. -/
def asmLine (l : SourceLine) : AsmLine := ⟨l.label.toList, some l.instr⟩

/-- The instruction of a line in a program, its label resolved. -/
def resolvedInstr (lines : List SourceLine) : AsmInstr → Instr
  | .plain i => i
  | .ldiLabel a name => .ldi a (BitVec.ofNat 8 (labelAddress lines name))

theorem collect_map {α β γ : Type} {f : β → Option γ} {g : α → β} {h : α → γ} {xs : List α}
    (hx : ∀ x ∈ xs, f (g x) = some (h x)) : collect f (xs.map g) = some (xs.map h) := by
  induction xs with
  | nil => rfl
  | cons x xs ih =>
    obtain ⟨hx, hxs⟩ := List.forall_mem_cons.1 hx
    simp [collect, hx, ih hxs]

theorem asmLength_eq_lineLength (l : SourceLine) : asmLength l.instr = lineLength l := by
  obtain ⟨label, i | ⟨a, name⟩⟩ := l
  · exact encode_length i
  · rfl

theorem labelAddresses_map_fst (addr : Nat) (lines : List SourceLine) :
    (labelAddresses addr (lines.map asmLine)).map Prod.fst = lines.filterMap SourceLine.label := by
  induction lines generalizing addr with
  | nil => rfl
  | cons l lines ih =>
    obtain ⟨_ | name, i⟩ := l
    · simpa [labelAddresses, asmLine] using ih _
    · simpa [labelAddresses, asmLine] using ih _

/-- The table gives each label the bytes before the line it is on. -/
theorem lookup_labelAddresses {lines : List SourceLine} {name : List Char} (h : some name ∈ lines.map SourceLine.label)
    (addr : Nat) : (labelAddresses addr (lines.map asmLine)).lookup name = some (addr + labelAddress lines name) := by
  induction lines generalizing addr with
  | nil => cases h
  | cons l lines ih =>
    simp only [List.map_cons, labelAddresses, List.lookup_append, asmLine, Option.map_some, Option.getD_some,
      asmLength_eq_lineLength]
    by_cases hl : l.label = some name
    · simp [hl, labelAddress]
    · have hhead : List.lookup name (l.label.toList.map fun n => (n, addr)) = none := by
        rw [List.lookup_eq_none_iff]
        rintro p hp
        obtain ⟨n, hn, rfl⟩ := List.mem_map.1 hp
        exact bne_iff_ne.2 fun hname => hl (hname ▸ Option.mem_toList.1 hn)
      have hrest := ih ((List.mem_cons.1 h).resolve_left fun h => hl h.symm) (addr + lineLength l)
      rw [hhead, Option.none_or]
      simpa [labelAddress, hl, Nat.add_assoc] using hrest

/-- The label on a line and the label its instruction uses have names of R79. -/
def hasLabelNames (l : SourceLine) : Prop := (∀ name, l.label = some name → labelName name) ∧ usesLabelName l.instr

theorem parseLine_lineText {l : SourceLine} (h : hasLabelNames l) : parseLine (lineText l) = some (asmLine l) := by
  obtain ⟨hlabel, hi⟩ := h
  have hws := isWord_operandTexts hi
  have hparse := parseInstr_operandTexts hi
  obtain ⟨_ | name, i⟩ := l
  · simpa [lineText, asmLine, instrText_eq_instrLine] using
      parseLine_instrLine (isWord_mnemonic _) hws hparse (.inl rfl)
  · simpa [lineText, asmLine, instrText_eq_instrLine] using
      parseLine_label_instrLine (isWord_mnemonic _) hws hparse (isWord_of_labelName (hlabel name rfl))

theorem newline_notMem_lineText {l : SourceLine} (h : hasLabelNames l) : '\n' ∉ lineText l := by
  obtain ⟨hlabel, hi⟩ := h
  have hinstr : '\n' ∉ instrText l.instr := by
    rw [instrText_eq_instrLine]
    exact notMem_instrLine (isWord_mnemonic _) (isWord_operandTexts hi) (by decide) (by decide) (by decide)
  obtain ⟨_ | name, i⟩ := l
  · exact hinstr
  · have hname : '\n' ∉ name := (isWord_of_labelName (hlabel name rfl)).notMem (by decide)
    simpa [lineText, hname] using hinstr

/-- The text of a program with a line is parsed line by line. (The text of no line is one empty line.) -/
theorem collect_parseLine_programText {lines : List SourceLine} (hlines : ∀ l ∈ lines, hasLabelNames l)
    (hne : lines ≠ []) :
    collect parseLine (splitAtChar '\n' (programText lines)) = some (lines.map asmLine) := by
  rw [programText, splitAtChar_eq_splitOn, List.splitOn_intercalate _ ?_ (by simpa using hne)]
  · exact collect_map fun l hl => parseLine_lineText (hlines l hl)
  · intro t ht
    obtain ⟨l, hl, rfl⟩ := List.mem_map.1 ht
    exact newline_notMem_lineText (hlines l hl)

theorem resolveLines_map_asmLine {lines : List SourceLine} (hnodup : (lines.filterMap SourceLine.label).Nodup)
    (huses : ∀ l ∈ lines, ∀ a name, l.instr = .ldiLabel a name →
      some name ∈ lines.map SourceLine.label ∧ labelAddress lines name ≤ 255) :
    resolveLines (lines.map asmLine) = some (lines.map fun l => resolvedInstr lines l.instr) := by
  have hinstrs : (lines.map asmLine).filterMap AsmLine.instr = lines.map SourceLine.instr := by
    rw [List.filterMap_map, ← List.filterMap_eq_map]
    rfl
  rw [resolveLines, labelAddresses_map_fst, if_pos hnodup, hinstrs]
  refine collect_map fun l hl => ?_
  rcases hi : l.instr with i | ⟨a, name⟩
  · rfl
  · obtain ⟨hmem, haddr⟩ := huses l hl a name hi
    simp [resolve, lookup_labelAddresses hmem, resolvedInstr, Nat.lt_succ_of_le haddr]

theorem imageOf_eq_flatMap_encode (lines : List SourceLine) :
    imageOf lines = (lines.map fun l => resolvedInstr lines l.instr).flatMap encode := by
  rw [imageOf, List.flatMap_map]
  refine List.flatMap_congr fun l _ => ?_
  cases l.instr <;> rfl

end Program

/-- Settles O58: each line is parsed to its label and instruction, and the table holds the addresses of the labels. -/
theorem labelsNameTheNextInstructionsAddress : Obligations.LabelsNameTheNextInstructionsAddress := by
  intro lines hlabels hnodup huses
  rcases eq_or_ne lines [] with rfl | hne
  · rfl
  have hlines : ∀ l ∈ lines, hasLabelNames l := by
    refine fun l hl => ⟨hlabels l hl, ?_⟩
    rcases hi : l.instr with i | ⟨a, name⟩
    · trivial
    · obtain ⟨l', hl', hname⟩ := List.mem_map.1 (huses l hl a name hi).1
      exact hlabels l' hl' name hname
  rw [assemble, assembleInstrs, collect_parseLine_programText hlines hne]
  simp only [resolveLines_map_asmLine hnodup huses, Option.map_some, imageOf_eq_flatMap_encode]

end Sys2Proof.Machine

/-! Register load and program output (spec/40_load_and_output.md): the step at an opcode byte with one or two operands, LDI
and PRN whole, and the output of a run of instructions. -/

namespace Sys2Proof.Machine

open Sys2Proof.Statements

section StepAtOpcode

variable {s : State} {i : Instr}

/-- The instruction whose bytes are those from the pc up is executed, when its operands fit. -/
theorem step_of_operands (hs : s.run = .running) (hop : s.mem.get s.pc = opcodeByte i.opcode)
    (hfit : s.pc + opcodeArity i.opcode ≤ 255)
    (hops : i.operands = [s.mem.get (s.pc + 1), s.mem.get (s.pc + 2)].take (opcodeArity i.opcode)) :
    step s = exec i s :=
  have ho : decodeOpcode (s.mem.get s.pc) = some i.opcode := by rw [hop, decodeOpcode_opcodeByte]
  cycle_of_fetch_ok hs (fetch_of_holdsAtPc (holdsAtPc_of_operands ho hfit hops))

/-- The step at the opcode byte of an instruction with one operand: R82, then the instruction. -/
theorem step_of_oneOperand (hs : s.run = .running) (hpc : s.pc ≤ 255) (hop : s.mem.get s.pc = opcodeByte i.opcode)
    (hops : i.operands = [s.mem.get (s.pc + 1)]) :
    step s = if s.pc = 255 then .next (s.faultedWith .addressOutOfRange (s.pc + 1)) else exec i s := by
  have harity : opcodeArity i.opcode = 1 := by rw [← operands_length, hops]; rfl
  obtain ⟨hmissing, -, -⟩ := operandFetchFollowsTheArity s i.opcode hs hpc hop
  split
  · next h255 => exact hmissing (by omega) (by omega)
  · exact step_of_operands hs hop (by omega) (by rw [harity, hops]; rfl)

/-- The step at the opcode byte of an instruction with two operands: R82 for each in order, then the instruction. -/
theorem step_of_twoOperands (hs : s.run = .running) (hpc : s.pc ≤ 255) (hop : s.mem.get s.pc = opcodeByte i.opcode)
    (hops : i.operands = [s.mem.get (s.pc + 1), s.mem.get (s.pc + 2)]) :
    step s = if s.pc = 255 then .next (s.faultedWith .addressOutOfRange (s.pc + 1))
      else if s.pc = 254 then .next (s.faultedWith .addressOutOfRange (s.pc + 2)) else exec i s := by
  have harity : opcodeArity i.opcode = 2 := by rw [← operands_length, hops]; rfl
  obtain ⟨hfirst, hsecond, -⟩ := operandFetchFollowsTheArity s i.opcode hs hpc hop
  split
  · next h255 => exact hfirst (by omega) (by omega)
  split
  · next h254 => exact hsecond harity (by omega) (by omega)
  · exact step_of_operands hs hop (by omega) (by rw [harity, hops]; rfl)

end StepAtOpcode

section LoadAndOutput

variable (s : State) (a b : Byte)

/-- What one register field decides, as the instruction rules write it: the legal case first, then InvalidRegister. -/
theorem eq_dite_of_oneField {s : State} {a : Byte} {r : Result} {t : a.toNat < 8 → State}
    (hr : (8 ≤ a.toNat ∧ r = .next (s.raise ⟨.invalidRegister, a.toNat⟩)) ∨ ∃ ha, r = .next (t ha)) :
    r = if h : a.toNat < 8 then .next (t h) else .next (s.faultedWith .invalidRegister a.toNat) := by
  rcases hr with ⟨ha, rfl⟩ | ⟨ha, rfl⟩
  · rw [dif_neg (Nat.not_lt.2 ha), raise_eq_faultedWith]
  · rw [dif_pos ha]

/-- LDI whole (R100): the immediate is never checked. -/
theorem exec_ldi : exec (.ldi a b) s =
    if h : a.toNat < 8 then .next { s.writeReg ⟨a.toNat, h⟩ (b.setWidth Config.W) with pc := s.pc + 3 }
    else .next (s.faultedWith .invalidRegister a.toNat) :=
  eq_dite_of_oneField (execLdi_cases a b s)

/-- PRN whole (R102). -/
theorem exec_prn : exec (.prn a) s =
    if h : a.toNat < 8 then .next { s with out := s.out ++ [s.readReg ⟨a.toNat, h⟩], pc := s.pc + 2 }
    else .next (s.faultedWith .invalidRegister a.toNat) :=
  eq_dite_of_oneField (execPrn_cases a s)

end LoadAndOutput

/-- Settles O13: the step at 0x82 is the fetch of two operands, then LDI with its one register field checked. -/
theorem ldiLoadsTheImmediate : Obligations.LdiLoadsTheImmediate := by
  refine ⟨fun s a b h => by rw [exec_ldi, dif_pos h], fun s hs hpc hop => ?_⟩
  rw [step_of_twoOperands (i := .ldi _ _) hs hpc hop rfl, exec_ldi]

/-- Settles O14: the step at 0x47 is the fetch of one operand, then PRN with its register field checked. -/
theorem prnEmitsTheRegister : Obligations.PrnEmitsTheRegister := by
  refine ⟨fun s a h => by rw [exec_prn, dif_pos h], fun s hs hpc hop => ?_⟩
  rw [step_of_oneOperand (i := .prn _) hs hpc hop rfl, exec_prn]

section InstructionsInOrder

variable {i : Instr} {is : List Instr} {s t : State}

theorem execAll_cons_eq_next : execAll (i :: is) s = .next t ↔ ∃ u, exec i s = .next u ∧ execAll is u = .next t := by
  rw [execAll]
  cases exec i s <;> simp

/-- No instruction takes back what was emitted (R38). -/
theorem exec_out_isPrefix (h : exec i s = .next t) : s.out <+: t.out := by
  by_cases hi : ∃ a, i = .prn a ∧ a.toNat < 8
  · obtain ⟨a, rfl, ha⟩ := hi
    exact ⟨_, (exec_out_prn ha h).symm⟩
  · rw [exec_out h fun a ha hlt => hi ⟨a, ha, hlt⟩]

theorem execAll_out_isPrefix (h : execAll is s = .next t) : s.out <+: t.out := by
  induction is generalizing s with
  | nil => cases h; exact ⟨[], List.append_nil _⟩
  | cons i is ih =>
    obtain ⟨u, hi, his⟩ := execAll_cons_eq_next.1 h
    exact (exec_out_isPrefix hi).trans (ih his)

/-- A register that none of the instructions writes keeps its value over all of them. -/
theorem execAll_readReg {r : Reg} (hr : ∀ i ∈ is, ¬ writesReg i r) (h : execAll is s = .next t) :
    t.readReg r = s.readReg r := by
  induction is generalizing s with
  | nil => cases h; rfl
  | cons i is ih =>
    obtain ⟨u, hi, his⟩ := execAll_cons_eq_next.1 h
    obtain ⟨hri, hris⟩ := List.forall_mem_cons.1 hr
    exact (ih hris his).trans (exec_readReg hi hri)

end InstructionsInOrder

/-- Settles O22: neither the first PRN nor what follows it writes the register, and the output only grows. -/
theorem prnTwiceEmitsTheSameValue : Obligations.PrnTwiceEmitsTheSameValue := by
  intro s t u v a between ha hr hfirst hbetween hsecond
  have hreg : u.readReg ⟨a.toNat, ha⟩ = s.readReg ⟨a.toNat, ha⟩ :=
    (execAll_readReg hr hbetween).trans (exec_readReg hfirst id)
  obtain ⟨emitted, hout⟩ := execAll_out_isPrefix hbetween
  exact ⟨emitted, by rw [exec_out_prn ha hsecond, hreg, ← hout, exec_out_prn ha hfirst]⟩

end Sys2Proof.Machine

/-! The ALU (spec/41_alu.md): its operations, the cause that no step raises, and MUL and CMP whole with their two register
fields. -/

namespace Sys2Proof.Machine

open Sys2Proof.Statements

section Comparison

variable {w : Nat} (p q : BitVec w)

/-- Compare reads its operands as the unsigned numbers they hold (R122, D2). -/
theorem compareFlags_toNat : ((compareFlags p q).E = true ↔ p.toNat = q.toNat) ∧
    ((compareFlags p q).L = true ↔ p.toNat < q.toNat) ∧ ((compareFlags p q).G = true ↔ p.toNat > q.toNat) :=
  ⟨beq_iff_eq, compareFlags_L_iff p q, decide_eq_true_iff⟩

end Comparison

/-- Settles O37: each operation's result is its value on natural numbers. -/
theorem aluOperations : Obligations.AluOperations := by
  refine ⟨fun s ra rb => ⟨_, addWrap_toNat _ _, rfl⟩, fun s ra rb => ⟨_, mulWrap_toNat _ _, rfl⟩,
    fun s ra rb => ?_, by decide⟩
  obtain ⟨hE, hL, hG⟩ := compareFlags_toNat (s.readReg ra) (s.readReg rb)
  exact ⟨_, hE, hL, hG, rfl⟩

/-- No fault of a step is the ALU's (R124, R164): the fetch and the register fields raise the three other causes. -/
theorem StepRaises.cause_ne_unsupportedOperation {s : State} {f : Raised} (h : StepRaises s f) :
    f.cause ≠ .unsupportedOperation := by
  cases h with
  | opcodeFetch | unknownOpcode | operandFetch | registerField => nofun

/-- Settles O38: the record of a step into Faulted carries the cause of a fault that the step raises. -/
theorem unsupportedOperationIsUnreachable : Obligations.UnsupportedOperationIsUnreachable := by
  refine ⟨fun n ra rb s => rfl, fun op ra rb s hop => ?_, fun s t r h hr => ?_⟩
  · rcases hop with rfl | rfl | rfl
    all_goals exact ⟨_, rfl⟩
  · obtain ⟨f, hf, -, rfl⟩ := raise_of_step_faulted h hr
    exact hf.cause_ne_unsupportedOperation

section TwoRegisters

variable {s : State} {a b : Byte}

/-- The step at the opcode byte of an instruction with two register fields: the faults of R82 and R84 in order, and what
`q` claims of the instruction when both fields are legal. -/
theorem step_of_twoRegisters {i : Instr}
    {q : (s.mem.get (s.pc + 1)).toNat < 8 → (s.mem.get (s.pc + 2)).toNat < 8 → Prop}
    (hs : s.run = .running) (hpc : s.pc ≤ 255) (hop : s.mem.get s.pc = opcodeByte i.opcode)
    (hops : i.operands = [s.mem.get (s.pc + 1), s.mem.get (s.pc + 2)])
    (hfields : i.registerFields = [s.mem.get (s.pc + 1), s.mem.get (s.pc + 2)])
    (hq : step s = exec i s → ∀ ha hb, q ha hb) :
    if s.pc = 255 then step s = .next (s.faultedWith .addressOutOfRange (s.pc + 1))
    else if s.pc = 254 then step s = .next (s.faultedWith .addressOutOfRange (s.pc + 2))
    else if ha : (s.mem.get (s.pc + 1)).toNat < 8 then
      if hb : (s.mem.get (s.pc + 2)).toNat < 8 then q ha hb
      else step s = .next (s.faultedWith .invalidRegister (s.mem.get (s.pc + 2)).toNat)
    else step s = .next (s.faultedWith .invalidRegister (s.mem.get (s.pc + 1)).toNat) := by
  have hstep := step_of_twoOperands hs hpc hop hops
  split_ifs with h255 h254 ha hb
  · rw [hstep, if_pos h255]
  · rw [hstep, if_neg h255, if_pos h254]
  all_goals rw [if_neg h255, if_neg h254] at hstep
  · exact hq hstep ha hb
  · exact hstep.trans (exec_of_firstIllegalField
      (firstIllegalField_of_second hfields (Nat.le_of_lt_succ ha) (Nat.le_of_not_lt hb)) s)
  · exact hstep.trans (exec_of_firstIllegalField (firstIllegalField_of_head hfields (Nat.le_of_not_lt ha)) s)

variable (s) (ha : a.toNat < 8) (hb : b.toNat < 8)

/-- An ALU instruction with legal fields moves on after its operation (R84, R120). -/
theorem aluInstr_of_legal {op : AluOp} {t : State} (hop : aluApply op ⟨a.toNat, ha⟩ ⟨b.toNat, hb⟩ s = .ok t) :
    aluInstr op a b s = .next (t.advance 3) := by
  rw [aluInstr, regField_of_lt ha, regField_of_lt hb]
  exact congrArg (fun r => commit s (r.map fun u => u.advance 3)) hop

/-- MUL with legal fields writes the wrapped product (R121). -/
theorem exec_mul_of_legal : exec (.mul a b) s = .next { s.writeReg ⟨a.toNat, ha⟩
    (mulWrap (s.readReg ⟨a.toNat, ha⟩) (s.readReg ⟨b.toNat, hb⟩)) with pc := s.pc + 3 } :=
  aluInstr_of_legal (op := .multiply) (t := s.writeReg _ _) s ha hb rfl

/-- CMP with legal fields replaces the flags by the comparison (R122). -/
theorem exec_cmp_of_legal : exec (.cmp a b) s = .next { s with
    flags := compareFlags (s.readReg ⟨a.toNat, ha⟩) (s.readReg ⟨b.toNat, hb⟩), pc := s.pc + 3 } :=
  aluInstr_of_legal (op := .compare) (t := s.setFlags _) s ha hb rfl

end TwoRegisters

/-- Settles O15: the step at 0xA2 is the fetch of two operands, then MUL with both register fields checked. -/
theorem mulWritesTheWrappedProduct : Obligations.MulWritesTheWrappedProduct := by
  refine ⟨fun s a b ha hb => ⟨_, mulWrap_toNat _ _, exec_mul_of_legal s ha hb⟩, fun s hs hpc hop => ?_⟩
  exact step_of_twoRegisters (i := .mul _ _) hs hpc hop rfl rfl fun hstep ha hb =>
    ⟨_, mulWrap_toNat _ _, hstep.trans (exec_mul_of_legal s ha hb)⟩

/-- Settles O16: the step at 0xA7 is the fetch of two operands, then CMP with both register fields checked. -/
theorem cmpSetsExactlyOneFlag : Obligations.CmpSetsExactlyOneFlag := by
  refine ⟨fun s a b ha hb => ?_, fun s hs hpc hop =>
    step_of_twoRegisters (i := .cmp _ _) hs hpc hop rfl rfl fun hstep ha hb => ?_⟩
  all_goals obtain ⟨hE, hL, hG⟩ := compareFlags_toNat (s.readReg ⟨_, ha⟩) (s.readReg ⟨_, hb⟩)
  · exact ⟨_, compareFlags_exactlyOne _ _, hE, hL, hG, exec_cmp_of_legal s ha hb⟩
  · exact ⟨_, compareFlags_exactlyOne _ _, hE, hL, hG, hstep.trans (exec_cmp_of_legal s ha hb)⟩

end Sys2Proof.Machine

/-! Control (spec/42_control.md): what the host can do with a stopped core, HLT at its opcode byte, the three jumps whole,
and the branches after a comparison. -/

namespace Sys2Proof.Machine

section StoppedPlatform

variable {w : Nat} {p q : Platform w} {m : PlatformMove w}

/-- A stopped core has no step to accept, so a move that is not a reset is the host's, before the start, and keeps the
run state (R86, R183). -/
theorem Platform.apply_stopped_cases (hp : p.core.run ≠ .running) (h : p.apply m = .next q) :
    (∃ regReset, m = .reset regReset ∧ q.core = State.resetWith regReset) ∨
      (q.core.run = p.core.run ∧ p.started = false) := by
  cases m with
  | load image =>
    obtain ⟨hstarted, m, -, rfl⟩ := Platform.load_next_cases h
    exact .inr ⟨rfl, hstarted⟩
  | start =>
    obtain ⟨hstarted, rfl⟩ := Platform.start_next_cases h
    exact .inr ⟨rfl, hstarted⟩
  | coreStep =>
    obtain ⟨-, t, ht, -⟩ := Platform.coreStep_next_cases h
    exact absurd (running_of_cycle ht) hp
  | reset regReset =>
    cases h
    exact .inl ⟨regReset, rfl, rfl⟩

end StoppedPlatform

section Halted

variable {s t : State}

theorem step_ne_next_of_halted (h : s.run = .halted) : step s ≠ .next t := by
  intro ht
  cases h.symm.trans (running_of_step ht)

theorem outcomeOf_statusOf_of_halted (h : s.run = .halted) : outcomeOf (statusOf s) = some .success := by
  simp [statusOf, outcomeOf, h]

/-- The step at 0x01: HLT needs no operand byte, so it executes at every address of memory (R140). -/
theorem step_of_hlt (hs : s.run = .running) (hpc : s.pc ≤ 255) (hop : s.mem.get s.pc = opcodeByte .hlt) :
    step s = .next { s with pc := s.pc + 1, run := .halted } :=
  step_of_operands (i := .hlt) hs hop hpc rfl

end Halted

/-- Settles O17: HLT's own step, and the three facts about the Halted state it leaves. -/
theorem hltStopsOnePastItself : Obligations.HltStopsOnePastItself := by
  refine ⟨fun _ => rfl, fun s hs hpc hop => ⟨step_of_hlt hs hpc hop, fun _ => step_ne_next_of_halted rfl,
    outcomeOf_statusOf_of_halted rfl, fun started m q hq => ?_⟩⟩
  rcases Platform.apply_stopped_cases (by nofun) hq with ⟨regReset, hm, -⟩ | ⟨hrun, -⟩
  · exact .inr ⟨regReset, hm⟩
  · exact .inl hrun

section Jumps

variable (s : State) (a : Byte)

/-- JMP whole (R141): any register value is a target. -/
theorem exec_jmp : exec (.jmp a) s =
    if h : a.toNat < 8 then .next { s with pc := (s.readReg ⟨a.toNat, h⟩).toNat }
    else .next (s.faultedWith .invalidRegister a.toNat) :=
  eq_dite_of_oneField (jumpIf_cases true a s)

/-- JEQ whole (R142). -/
theorem exec_jeq : exec (.jeq a) s =
    if h : a.toNat < 8 then
      .next (if s.flags.E = true then { s with pc := (s.readReg ⟨a.toNat, h⟩).toNat } else { s with pc := s.pc + 2 })
    else .next (s.faultedWith .invalidRegister a.toNat) :=
  eq_dite_of_oneField (jumpIf_cases s.flags.E a s)

/-- JNE whole (R143): the branches of JEQ, exchanged. -/
theorem exec_jne : exec (.jne a) s =
    if h : a.toNat < 8 then
      .next (if s.flags.E = true then { s with pc := s.pc + 2 } else { s with pc := (s.readReg ⟨a.toNat, h⟩).toNat })
    else .next (s.faultedWith .invalidRegister a.toNat) := by
  refine eq_dite_of_oneField ((jumpIf_cases (!s.flags.E) a s).imp id ?_)
  rintro ⟨ha, hr⟩
  exact ⟨ha, hr.trans (by cases s.flags.E <;> rfl)⟩

end Jumps

/-- Settles O18: the step at 0x54 is the fetch of one operand, then JMP with its register field checked. -/
theorem jmpGoesToTheRegister : Obligations.JmpGoesToTheRegister := by
  refine ⟨fun s a h => by rw [exec_jmp, dif_pos h], fun s hs hpc hop => ?_⟩
  rw [step_of_oneOperand (i := .jmp _) hs hpc hop rfl, exec_jmp]

/-- Settles O19: the step at 0x55 is the fetch of one operand, then JEQ with its register field checked, taken or not. -/
theorem jeqJumpsWhenEqual : Obligations.JeqJumpsWhenEqual := by
  refine ⟨fun s a h => by rw [exec_jeq, dif_pos h], fun s hs hpc hop => ?_⟩
  rw [step_of_oneOperand (i := .jeq _) hs hpc hop rfl, exec_jeq]

/-- Settles O20: the step at 0x56 is the fetch of one operand, then JNE with its register field checked, taken or not. -/
theorem jneJumpsWhenNotEqual : Obligations.JneJumpsWhenNotEqual := by
  refine ⟨fun s a h => by rw [exec_jne, dif_pos h], fun s hs hpc hop => ?_⟩
  rw [step_of_oneOperand (i := .jne _) hs hpc hop rfl, exec_jne]

/-- After a CMP, E says whether the two registers hold the same value (R122). -/
theorem exec_cmp_flags_E {s u : State} {a b : Byte} (ha : a.toNat < 8) (hb : b.toNat < 8)
    (h : exec (.cmp a b) s = .next u) : u.flags.E = true ↔ s.readReg ⟨a.toNat, ha⟩ = s.readReg ⟨b.toNat, hb⟩ := by
  cases (exec_cmp_of_legal s ha hb).symm.trans h
  exact beq_iff_eq.trans BitVec.toNat_inj

/-- Settles O21: CMP leaves the target register alone, and E chooses one branch of each jump. -/
theorem jeqAndJneAreComplementary : Obligations.JeqAndJneAreComplementary := by
  intro s u a b c ha hb hc hcmp
  have htarget : u.readReg ⟨c.toNat, hc⟩ = s.readReg ⟨c.toNat, hc⟩ := exec_readReg hcmp id
  have hE := exec_cmp_flags_E ha hb hcmp
  rw [exec_jeq, exec_jne, dif_pos hc, dif_pos hc, htarget]
  by_cases heq : s.readReg ⟨a.toNat, ha⟩ = s.readReg ⟨b.toNat, hb⟩
  · exact .inl ⟨heq, by rw [if_pos (hE.2 heq)], by rw [if_pos (hE.2 heq)]⟩
  · exact .inr ⟨heq, by rw [if_neg (heq ∘ hE.1)], by rw [if_neg (heq ∘ hE.1)]⟩

end Sys2Proof.Machine

/-! Faults and the ports (spec/60_exceptions.md): fault entry, what the trace and status ports return, the outcome and the
exit code of a run, and the observation of a run that has ended. -/

namespace Sys2Proof.Machine

/-- A Faulted core has no step, as a Halted one has none (R86). -/
theorem step_ne_next_of_faulted {s t : State} {r : FaultRecord} (h : s.run = .faulted r) : step s ≠ .next t := by
  intro ht
  cases h.symm.trans (running_of_step ht)

/-- Settles O42: a step into Faulted is one fault entry, which writes the run state alone. -/
theorem faultEntryIsPrecise : Obligations.FaultEntryIsPrecise := by
  intro s t r h hr
  obtain ⟨f, -, rfl, rfl⟩ := raise_of_step_faulted h hr
  exact ⟨rfl, rfl, rfl, fun _ => step_ne_next_of_faulted hr⟩

/-- Settles O44: before its start a stopped core accepts a load or the start, which keep the run state, and a reset at any
time. -/
theorem onlyResetLeavesHaltedOrFaulted : Obligations.OnlyResetLeavesHaltedOrFaulted :=
  fun _ _ _ => Platform.apply_stopped_cases

section Outcomes

variable {s t : State} {r q : FaultRecord}

theorem outcomeOf_statusOf_of_running (h : s.run = .running) : outcomeOf (statusOf s) = none := by
  simp [statusOf, outcomeOf, h]

/-- A failure carries the three fault fields, whatever they hold (R182). -/
theorem outcomeOf_statusOf_of_faulted (h : s.run = .faulted r) : outcomeOf (statusOf s) =
    some (.failure (statusOf s).faultCause (statusOf s).faultPc (statusOf s).faultInfo) := by
  simp [statusOf, outcomeOf, h]

theorem outcomeOf_statusOf_eq_none_iff : outcomeOf (statusOf s) = none ↔ s.run = .running := by
  cases h : s.run with
  | running => simp [outcomeOf_statusOf_of_running h]
  | halted => simp [outcomeOf_statusOf_of_halted h]
  | faulted r => simp [outcomeOf_statusOf_of_faulted h]

theorem outcomeOf_statusOf_eq_success_iff : outcomeOf (statusOf s) = some .success ↔ s.run = .halted := by
  cases h : s.run with
  | running => simp [outcomeOf_statusOf_of_running h]
  | halted => simp [outcomeOf_statusOf_of_halted h]
  | faulted r => simp [outcomeOf_statusOf_of_faulted h]

/-- The three bits of FAULT_CAUSE keep the codes 1 to 4 apart (R36). -/
theorem causeBits_inj {c d : FaultCause} :
    BitVec.ofNat 3 (causeCode c) = BitVec.ofNat 3 (causeCode d) ↔ c = d := by
  cases c <;> cases d <;> decide

theorem statusOf_faultCause (h : s.run = .faulted r) : (statusOf s).faultCause = BitVec.ofNat 3 (causeCode r.cause) := by
  simp [statusOf, h]

theorem statusOf_faultCause_eq_iff (hs : s.run = .faulted r) (ht : t.run = .faulted q) :
    (statusOf s).faultCause = (statusOf t).faultCause ↔ r.cause = q.cause := by
  rw [statusOf_faultCause hs, statusOf_faultCause ht, causeBits_inj]

end Outcomes

section ExitCodes

variable {s t : State} {r q : FaultRecord} {exitCode : Option FaultCause → Int} (hcode : exitCodesValid exitCode)

theorem exitStatus_of_faulted (exitCode : Option FaultCause → Int) (h : s.run = .faulted r) :
    exitStatus exitCode s = some (exitCode (some r.cause)) := by
  simp [exitStatus, h]

include hcode

theorem exitStatus_eq_zero_iff : exitStatus exitCode s = some 0 ↔ s.run = .halted := by
  obtain ⟨hzero, hne, -⟩ := hcode
  cases h : s.run with
  | running => simp [exitStatus, h]
  | halted => simp [exitStatus, h, hzero]
  | faulted r => simp [exitStatus_of_faulted exitCode h, hne]

theorem exitStatus_eq_iff (hs : s.run = .faulted r) (ht : t.run = .faulted q) :
    exitStatus exitCode s = exitStatus exitCode t ↔ r.cause = q.cause := by
  obtain ⟨-, -, hinj⟩ := hcode
  rw [exitStatus_of_faulted exitCode hs, exitStatus_of_faulted exitCode ht, Option.some_inj]
  exact ⟨hinj _ _, congrArg fun c => exitCode (some c)⟩

end ExitCodes

/-- Settles O53: the outcome of each run state, the cause code and the exit code of two faults. -/
theorem outcomesAreDistinguishable : Obligations.OutcomesAreDistinguishable := fun _ =>
  ⟨outcomeOf_statusOf_eq_none_iff, outcomeOf_statusOf_eq_success_iff, fun _ => outcomeOf_statusOf_of_faulted,
    fun _ _ _ => statusOf_faultCause_eq_iff, fun _ hcode =>
    ⟨exitStatus_eq_zero_iff hcode, fun _ _ _ => exitStatus_eq_iff hcode⟩⟩

/-- A port's read of a byte: what MemRead gives, with its fault left out (R51, R180). -/
theorem toOption_memRead (m : Memory) (a : Nat) :
    (memRead m a).toOption = if a ≤ 255 then some (m.get a) else none := by
  split_ifs with h
  · rw [memRead_of_lt (Nat.lt_succ_of_le h)]
    rfl
  · rw [memRead_of_le (Nat.lt_of_not_le h)]
    rfl

/-- Settles O51: each of the three bytes is a read without a fault. -/
theorem tracePortView : Obligations.TracePortView := fun s =>
  ⟨rfl, rfl, toOption_memRead s.mem s.pc, toOption_memRead s.mem (s.pc + 1), toOption_memRead s.mem (s.pc + 2)⟩

section Observations

variable {s : State} {o : Observation}

theorem observe_eq_none_iff : observe s = none ↔ s.run = .running := by
  refine ⟨fun h => by_contra fun hs => ?_, observe_of_running⟩
  obtain ⟨o, ho⟩ := observe_of_stopped hs
  cases h.symm.trans ho

/-- An observation is the whole state of a stopped core, field by field (R184). -/
theorem observe_eq_some_iff : observe s = some o ↔ s.run ≠ .running ∧
    s = { mem := o.mem, x := o.regs, pc := o.pc, flags := o.flags, run := o.run, out := o.out } := by
  constructor
  · intro h
    have hs : s.run ≠ .running := fun hs => by cases (observe_of_running hs).symm.trans h
    cases (if_neg hs).symm.trans h
    exact ⟨hs, rfl⟩
  · rintro ⟨hs, rfl⟩
    exact if_neg hs

end Observations

/-- Settles O55. -/
theorem endedRunIsObserved : Obligations.EndedRunIsObserved := fun _ =>
  ⟨observe_eq_none_iff.symm, fun _ => observe_eq_some_iff⟩

end Sys2Proof.Machine

/-! Reset, launch and determinism (spec/70_reset_and_hazards.md R190 to R199): the one next state of a Running core, the
memory that no run writes, and the launch state of every image. -/

namespace Sys2Proof.Machine

/-- Settles O8: a Running core has a step, a step has one answer, and a stopped core has no step. -/
theorem exactlyTheRunningCoreSteps : Obligations.ExactlyTheRunningCoreSteps := by
  refine fun s => ⟨fun hs => ?_, fun hs t => ?_⟩
  · obtain ⟨t, ht⟩ := step_exists_next hs
    exact ⟨t, ht, fun u hu => Host.Outcome.next.inj (hu.symm.trans ht)⟩
  · rcases hs with hs | ⟨r, hs⟩
    · exact step_ne_next_of_halted hs
    · exact step_ne_next_of_faulted hs

/-- No run writes memory, because no step does (R197). -/
theorem run_mem {n : Nat} {s t : State} (h : Sys2Proof.core.run n s = .next t) : t.mem = s.mem := by
  induction n generalizing s with
  | zero =>
    cases h
    rfl
  | succ n ih =>
    obtain ⟨u, hu, hr⟩ := core_run_succ.1 h
    exact (ih hr).trans (step_mem hu)

/-- Settles O36. -/
theorem noInstructionWritesMemory : Obligations.NoInstructionWritesMemory :=
  ⟨fun _ _ _ => exec_mem, fun _ _ _ => run_mem⟩

/-- A load that does not end by address 255 fails at its first write above it, the one at 256 (R192, D14). -/
theorem loadBytes_of_too_long {bs : List Byte} {m : Memory} {a : Nat} (ha : a ≤ 256) (h : 256 < a + bs.length) :
    loadBytes m a bs = .error ⟨.addressOutOfRange, 256⟩ := by
  induction bs generalizing m a with
  | nil => exact absurd ha (Nat.not_le.2 h)
  | cons v bs ih =>
    rw [List.length_cons] at h
    rcases Nat.lt_or_eq_of_le ha with ha | rfl
    · rw [loadBytes, memWrite_of_lt ha]
      exact ih ha (by omega)
    · rw [loadBytes, memWrite_of_le le_rfl]

section Launch

variable {w : Nat} {regReset : Vector (Word w) 8} {image : List Byte}

theorem launch_of_ok {m : Memory} (h : loadBytes (State.resetWith regReset).mem 0 image = .ok m) :
    launch regReset image = .ok { State.resetWith regReset with mem := m } := by
  rw [launch, h]

theorem launch_of_error {f : Raised} (h : loadBytes (State.resetWith regReset).mem 0 image = .error f) :
    launch regReset image = .error f := by
  rw [launch, h]

/-- The platform refuses a load whole when one of its writes faults (log 8). -/
theorem Platform.apply_load_of_error {s : State w} {f : Raised} (h : loadBytes s.mem 0 image = .error f) :
    Platform.apply ⟨s, false⟩ (.load image) = .refused .imageTooLong := by
  simp [Platform.apply, h]

end Launch

/-- Settles O46: the load into the empty memory of reset is carried out up to 256 bytes and fails beyond, and the launch
and the platform's load answer as it does. -/
theorem launchStateHoldsTheImage : Obligations.LaunchStateHoldsTheImage := by
  refine fun regReset image => ⟨fun hlen => ?_, fun hlen => ?_⟩
  · have hwf := State.resetWith_wf regReset
    obtain ⟨m, hload, hget⟩ := loadBytes_of_fits hwf (show 0 + image.length ≤ 256 by omega)
    refine ⟨_, launch_of_ok hload, loadBytes_wf hwf hload, fun a ha => ?_, rfl, rfl, rfl, rfl, rfl,
      Platform.apply_load_of_ok hload, rfl⟩
    rw [memRead_of_lt (Nat.lt_succ_of_le ha), hget, if_pos a.zero_le]
    rfl
  · have hload := loadBytes_of_too_long (m := (State.resetWith regReset).mem) (Nat.zero_le 256)
      (show 256 < 0 + image.length by omega)
    exact ⟨launch_of_error hload, Platform.apply_load_of_error hload⟩

end Sys2Proof.Machine
